-- ==== Sys2Proof/Word.lean ====
section
/-!
DEFINITION. The value types of the engine (spec 00_scope.md R10): every value is an unsigned integer of a stated
width, and there is no signed quantity.
-/

namespace Sys2Proof

/-- A 32-bit word (R10). -/
abbrev Word := BitVec 32

/-- An 8-bit byte (R10). -/
abbrev Byte := BitVec 8

/-- A 4-bit nibble (R10). -/
abbrev Nibble := BitVec 4

/-- A 16-bit command word (30_encoding.md R60). -/
abbrev CmdWord := BitVec 16

/-- The State: eight words (10_state.md R20). -/
abbrev Words8 := Vector Word 8

/-- One 64-byte block (00_scope.md R6, BLOCKBYTES). -/
abbrev Block := Vector Byte 64

end Sys2Proof
end

