-- ==== Sys2Proof/Config.lean ====
section
/-!
DEFINITION. What is fixed for the life of one instance (spec 00_scope.md R7, R8; 10_state.md R35), and the one free
value of the model (70_reset_and_hazards.md R214). The concrete defaults stand in Machine/Constants.lean.
-/

namespace Sys2Proof

/-- The parameter LENW of R8: the width in bits of the message bit-length counter, 64 or 32. -/
inductive LenWidth where
  | w64
  | w32
  deriving DecidableEq, Repr

/-- LENW as a number of bits (R8). -/
def LenWidth.bits : LenWidth → Nat
  | .w64 => 64
  | .w32 => 32

/-- The parameters of an instance (R7, R8, R35): wired constants, which no command writes. They are no state of the
engine; a State carries them (field `cfg`) so that a claim about every State is a claim about every parameter value
(assumption log 4). -/
structure Config where
  /-- The initial vector `IV[0..7]` (R7). -/
  iv : Words8
  /-- The counter width `LENW` (R8). -/
  lenw : LenWidth
  deriving DecidableEq, Repr

/-- FREE VALUE, with no body: how many of the outputs of a command that a reset cuts short were emitted (R214: "an
arbitrary prefix (possibly empty, possibly all)"; 93_implementation_defined.md X4). It is applied to the counter
`freeCount` of State, which every use advances (assumption log 8). -/
opaque Config.freePrefixLength : Nat → Nat

end Sys2Proof
end

