-- ==== Sys2Proof/Machine/Constants.lean ====
section
/-!
DEFINITION. The constants of the design (spec 00_scope.md R6, R7, R9).
-/

namespace Sys2Proof.Machine

/-- `T_LO`, the round constant for `j < 16` (R6). -/
def tLo : Word := 0x79cc4519#32

/-- `T_HI`, the round constant for `16 ≤ j ≤ 63` (R6). -/
def tHi : Word := 0x7a879d8a#32

/-- The spec's default of the parameter `IV` (R7). PRESUMED: the spec marks the literal "from general knowledge, not in
source" (assumption log 4). -/
def defaultIv : Words8 :=
  #v[0x7380166f#32, 0x4914b2b9#32, 0x172442d7#32, 0xda8a0600#32,
     0xa96f30bc#32, 0x163138aa#32, 0xe38dee4d#32, 0xb0fb0e4e#32]

/-- The parameters at their defaults (R7, R8): `LENW = 64`. -/
def defaultConfig : Config := { iv := defaultIv, lenw := .w64 }

/-- `MAXBYTES = 2^(LENW−3) − 1`, the longest message in bytes (R9). -/
def maxBytes (cfg : Config) : Nat := 2 ^ (cfg.lenw.bits - 3) - 1

/-- `2^LENW − 8`, the largest value of LEN (42_padder.md R114). -/
def lenLimit (cfg : Config) : BitVec 64 := BitVec.ofNat 64 (2 ^ cfg.lenw.bits - 8)

/-- The `LENW` bits that the LEN register has (10_state.md R25), as a mask over 64 bits. -/
def lenMask (cfg : Config) : BitVec 64 := BitVec.ofNat 64 (2 ^ cfg.lenw.bits - 1)

end Sys2Proof.Machine
end

