-- ==== Sys2Proof/Machine/Datapath.lean ====
section
/-!
DEFINITION. The modular-addition datapath (spec 40_datapath.md R80 to R89): pure functions on words, with no encoding,
no state, no flag and no fault.
-/

namespace Sys2Proof.Machine

/-- `ADD32` (R80): addition modulo 2^32, the carry dropped. -/
def add32 (x y : Word) : Word := x + y

/-- `ROTL(x, n)` (R82): left circular rotation by `n` bits, `0 ≤ n ≤ 31`. -/
def rotl (x : Word) (n : Nat) : Word := x.rotateLeft n

/-- `P0` (R83). -/
def p0 (x : Word) : Word := x ^^^ rotl x 9 ^^^ rotl x 17

/-- `P1` (R84). -/
def p1 (x : Word) : Word := x ^^^ rotl x 15 ^^^ rotl x 23

/-- `T(j)` (R85): the round constant. -/
def tConst (j : Nat) : Word := if j < 16 then tLo else tHi

/-- `TROT(j) = ROTL(T(j), j mod 32)` (R88, R145). -/
def tRot (j : Nat) : Word := rotl (tConst j) (j % 32)

/-- `FF(x, y, z, j)` (R86): three-way exclusive or, then bitwise majority. -/
def ff (x y z : Word) (j : Nat) : Word :=
  if j < 16 then x ^^^ y ^^^ z else (x &&& y) ||| (x &&& z) ||| (y &&& z)

/-- `GG(x, y, z, j)` (R87): three-way exclusive or, then bitwise choose. -/
def gg (x y z : Word) (j : Nat) : Word :=
  if j < 16 then x ^^^ y ^^^ z else (x &&& y) ||| (~~~x &&& z)

end Sys2Proof.Machine
end

