-- ==== Sys2Proof/Syntax.lean ====
section
/-!
DEFINITION. The seven commands of HCMD-1 (spec 30_encoding.md R62, R63), one constructor per row of
spec/opcode_table.json. The types of the operands are the legal ranges of R62, so that an `Instr` cannot carry an
operand its encoding does not admit.
-/

namespace Sys2Proof

/-- A command (00_scope.md R17), decoded. -/
inductive Instr where
  /-- `INIT`: open a new message (42_padder.md R112). -/
  | init
  /-- `PUSH byte`: append one byte to the open message (R114); all 256 values are legal. -/
  | push (byte : Byte)
  /-- `FINAL`: close the message (R116). -/
  | final
  /-- `DIGEST`: emit the 64 digest characters (45_serializer.md R160). -/
  | digest
  /-- `RDV idx`: read one State word (46_readback.md R170). -/
  | rdv (idx : Fin 8)
  /-- `RDLEN sel`: read half of the bit-length counter, 0 the low word, 1 the high word (R171). -/
  | rdlen (sel : Fin 2)
  /-- `RDST`: read the status register (R172). -/
  | rdst
  deriving DecidableEq, Repr

end Sys2Proof
end

