-- ==== Sys2Proof/WellFormed.lean ====
section
/-!
DEFINITION. Which command words are legal, said field by field as spec 30_encoding.md R61, R62 and R65 say it. The
decoder (Decode.lean) is written from the match and mask table of R63 instead, so the two can be held against each
other. An `Instr` is well formed by its type; `Instr.fields` gives the fields its word is written with.
-/

namespace Sys2Proof

/-- The three fields of a command word (R61): `op` bits 15:12, `zero` bits 11:8, `imm` bits 7:0. -/
structure Fields where
  op : BitVec 4
  zero : BitVec 4
  imm : BitVec 8
  deriving DecidableEq, Repr

/-- The fields of a word (R61). -/
def Fields.ofWord (w : CmdWord) : Fields :=
  { op := w.extractLsb' 12 4, zero := w.extractLsb' 8 4, imm := w.extractLsb' 0 8 }

/-- The word that fields make (R61). -/
def Fields.toWord (f : Fields) : CmdWord := f.op ++ f.zero ++ f.imm

/-- R63, R65: an opcode in use is 1 to 7; op 0 and op 8 to 15 are illegal. -/
def Fields.opcodeInUse (f : Fields) : Bool := 1 ≤ f.op.toNat && f.op.toNat ≤ 7

/-- R61: `zero` must be 0000 in every command. -/
def Fields.zeroClear (f : Fields) : Bool := f.zero == 0

/-- R62: the bits of `imm` above the operand must be 0: none for PUSH (op 2), `imm[7:3]` for RDV (op 5), `imm[7:1]`
for RDLEN (op 6), all of `imm` for the commands with no operand. -/
def Fields.immInRange (f : Fields) : Bool :=
  if f.op = 2 then true
  else if f.op = 5 then f.imm.toNat < 8
  else if f.op = 6 then f.imm.toNat < 2
  else f.imm == 0

/-- R65: a word is legal if and only if it passes all three checks. -/
def Fields.legal (f : Fields) : Bool := f.opcodeInUse && f.zeroClear && f.immInRange

/-- The fields a command is written with (R62, R63). -/
def Instr.fields : Instr → Fields
  | .init => ⟨1, 0, 0⟩
  | .push b => ⟨2, 0, b⟩
  | .final => ⟨3, 0, 0⟩
  | .digest => ⟨4, 0, 0⟩
  | .rdv i => ⟨5, 0, BitVec.ofNat 8 i.val⟩
  | .rdlen s => ⟨6, 0, BitVec.ofNat 8 s.val⟩
  | .rdst => ⟨7, 0, 0⟩

/-- A command is well formed if the fields it is written with are legal. -/
def Instr.wellFormed (i : Instr) : Bool := i.fields.legal

end Sys2Proof
end

