-- ==== Sys2Proof/Decode.lean ====
section
/-!
DEFINITION. Decoding and encoding (spec 30_encoding.md R60 to R65), both from the match and mask table of R63. A
command word crosses the command port whole (20_memory.md R45), so it has no byte order.
-/

namespace Sys2Proof

/-- A row of the opcode map (R63). -/
structure Row where
  mnemonic : String
  bits : CmdWord
  mask : CmdWord
  deriving DecidableEq, Repr

def rowInit : Row := ⟨"INIT", 0x1000#16, 0xFFFF#16⟩
def rowPush : Row := ⟨"PUSH", 0x2000#16, 0xFF00#16⟩
def rowFinal : Row := ⟨"FINAL", 0x3000#16, 0xFFFF#16⟩
def rowDigest : Row := ⟨"DIGEST", 0x4000#16, 0xFFFF#16⟩
def rowRdv : Row := ⟨"RDV", 0x5000#16, 0xFFF8#16⟩
def rowRdlen : Row := ⟨"RDLEN", 0x6000#16, 0xFFFE#16⟩
def rowRdst : Row := ⟨"RDST", 0x7000#16, 0xFFFF#16⟩

/-- The seven rows of R63. -/
def opcodeTable : List Row :=
  [rowInit, rowPush, rowFinal, rowDigest, rowRdv, rowRdlen, rowRdst]

/-- A word is the command of a row if and only if `w AND mask = match` (R63). -/
def Row.hits (r : Row) (w : CmdWord) : Bool := w &&& r.mask == r.bits

/-- Why a word is illegal (R65). The engine has one kind of illegal word; the three names are the model's, one for each
of R65's reasons (assumption log 11). -/
inductive Illegal where
  /-- `op` is 0 or 8 to 15. -/
  | opcodeNotInUse (op : BitVec 4)
  /-- `zero` is not 0000. -/
  | zeroFieldSet
  /-- a must-be-zero bit of `imm` is set. -/
  | immBitsSet
  deriving DecidableEq, Repr

/-- What a word decodes to (R64). -/
inductive Decoded where
  | command (i : Instr)
  | illegal (why : Illegal)
  deriving DecidableEq, Repr

/-- The reason for a word that no row matches, the first of R65's in the order opcode, `zero`, `imm`. -/
def whyIllegal (w : CmdWord) : Illegal :=
  let op := w.extractLsb' 12 4
  if op = 0#4 ∨ 8 ≤ op.toNat then .opcodeNotInUse op
  else if w.extractLsb' 8 4 ≠ 0#4 then .zeroFieldSet
  else .immBitsSet

/-- The 3-bit operand of RDV, `imm[2:0]` (R62). -/
def operandIdx (w : CmdWord) : Fin 8 := ⟨w.toNat % 8, Nat.mod_lt _ (by decide)⟩

/-- The 1-bit operand of RDLEN, `imm[0]` (R62). -/
def operandSel (w : CmdWord) : Fin 2 := ⟨w.toNat % 2, Nat.mod_lt _ (by decide)⟩

/-- R64: the total decoding function; it depends on the word alone. -/
def decode (w : CmdWord) : Decoded :=
  if rowInit.hits w then .command .init
  else if rowPush.hits w then .command (.push (w.extractLsb' 0 8))
  else if rowFinal.hits w then .command .final
  else if rowDigest.hits w then .command .digest
  else if rowRdv.hits w then .command (.rdv (operandIdx w))
  else if rowRdlen.hits w then .command (.rdlen (operandSel w))
  else if rowRdst.hits w then .command .rdst
  else .illegal (whyIllegal w)

/-- The row of a command. -/
def Instr.row : Instr → Row
  | .init => rowInit
  | .push _ => rowPush
  | .final => rowFinal
  | .digest => rowDigest
  | .rdv _ => rowRdv
  | .rdlen _ => rowRdlen
  | .rdst => rowRdst

/-- The operand of a command as a number (R62): 0 where there is none. -/
def Instr.operand : Instr → Nat
  | .push b => b.toNat
  | .rdv i => i.val
  | .rdlen s => s.val
  | .init => 0
  | .final => 0
  | .digest => 0
  | .rdst => 0

/-- The encoder: the row's bits plus the operand (R63, R68). -/
def encode (i : Instr) : CmdWord := i.row.bits + BitVec.ofNat 16 i.operand

/-- The word that `nbits` table bits make: bits above `nbits` are 0. -/
def tableWord (nbits w : Nat) : CmdWord := BitVec.ofNat 16 (w % 2 ^ nbits)

/-- The instruction the decoder reads from an instruction whose bits are `w`, numbered as spec/opcode_table.json
numbers them. Every command is one 16-bit word (R60), so nothing longer is a command. -/
def decodeTableWord (nbits w : Nat) : Option Instr :=
  if nbits ≤ 16 ∧ w < 2 ^ nbits then
    match decode (tableWord nbits w) with
    | .command i => some i
    | .illegal _ => none
  else none

end Sys2Proof
end

