-- ==== Sys2Proof/Machine/State.lean ====
section
/-!
DEFINITION. The state of one engine, as plain data, with all that spec 10_state.md gives it, beside the host's command
port, reset input and output history (20_memory.md R41, R51), and the state right after reset (R33).
-/

namespace Sys2Proof.Machine

/-- `PHASE` (10_state.md R28): where the engine is in the life of one message. -/
inductive Phase where
  | idle
  | absorb
  | done
  | fault
  deriving DecidableEq, Repr

/-- `CAUSE` (R29; 60_exceptions.md R180): the fault recorded. -/
inductive Cause where
  | noFault
  | invalidInput
  | inputTooLarge
  | illegalCommand
  deriving DecidableEq, Repr

/-- One event of the output history (00_scope.md R13; 30_encoding.md R70). -/
inductive OutEvent where
  /-- a 32-bit word on the response port -/
  | resp (w : Word)
  /-- an 8-bit character on the digest port -/
  | hex (c : Byte)
  deriving DecidableEq, Repr

/-- What the host can do to the engine (20_memory.md R50; 70_reset_and_hazards.md R200, R214; assumption log 1). -/
inductive HostEvent where
  /-- a 16-bit word on the command port -/
  | command (w : CmdWord)
  /-- the reset input, asserted between two commands -/
  | reset
  /-- a word on the command port, and the reset input asserted before that command has finished -/
  | commandCutByReset (w : CmdWord)
  deriving DecidableEq, Repr

/-- The working registers `A` … `H` (10_state.md R21). -/
structure Work where
  a : Word
  b : Word
  c : Word
  d : Word
  e : Word
  f : Word
  g : Word
  h : Word
  deriving DecidableEq, Repr

/-- The transient store: `A` … `H`, `W[0..67]` and `Wp[0..63]` (10_state.md R21, R23), by what has been written to it
since the block procedure began. Between commands it is `unspecified`: the spec gives it no value then, and says that
a model must give it none (R34; 93_implementation_defined.md X2; assumption log 7). -/
inductive Transient where
  /-- no defined content: between commands, and after reset -/
  | unspecified
  /-- `LOADW` has written `W[0..15]` (43_schedule.md R130) -/
  | loaded (w : Vector Word 16)
  /-- `EXPAND` has written `W[16..67]` (R131) -/
  | expanded (w : Vector Word 68)
  /-- `PRIME` has written `Wp[0..63]` (R132) -/
  | primed (w : Vector Word 68) (wp : Vector Word 64)
  /-- `CLOAD` has written `A` … `H` (44_compress.md R141); the rounds work here -/
  | working (w : Vector Word 68) (wp : Vector Word 64) (r : Work)
  deriving DecidableEq, Repr

/-- The block buffer `BUF` (10_state.md R24; 20_memory.md R40): the bytes that have a value, addresses strictly rising.
An unlisted address has NO value: the spec leaves it unspecified after reset, at and above `FILL`, and in IDLE and DONE
(assumption log 6). -/
abbrev Memory := List Host.Cell

/-- The state of the engine and its ports. -/
structure State where
  /-- the parameters `IV` and `LENW` of this instance (R35): constants, which no step changes -/
  cfg : Config
  /-- the State words `V[0..7]` (R20) -/
  v : Words8
  /-- `zext_64(LEN)` (R25); LEN itself has `LENW` bits and is written through `writeLen` -/
  len : BitVec 64
  /-- `FILL` (R26) -/
  fill : BitVec 6
  /-- `PHASE` (R28) -/
  phase : Phase
  /-- `CAUSE` (R29) -/
  cause : Cause
  /-- `BUF[0..63]` (R24) -/
  buf : Memory
  /-- `A` … `H`, `W`, `Wp` (R21, R23) -/
  transient : Transient
  /-- what the host has sent to the command port and the reset input and the engine has not yet taken, oldest first -/
  port : List HostEvent
  /-- the notional command pointer `cp` (R27) -/
  cp : Nat
  /-- `OUT`, the output history, oldest first (R37) -/
  out : List OutEvent
  /-- the MODEL's own counter of the free values used so far (assumption log 8) -/
  freeCount : Nat
  deriving DecidableEq, Repr

/-- Why the model stops. The engine's own three faults (60_exceptions.md R180) are no stops: fault entry is a next
state. These are accesses to a cell the spec says has no value, or no existence; every one is SAFE (the model stops), and
from a state that meets the invariant no command raises one. -/
inductive Fault where
  /-- a read of the byte `BUF[addr]`, which has no value (93_implementation_defined.md X1); raised by LOADW; safe -/
  | valuelessByte (addr : Nat)
  /-- an access to `BUF[addr]` with `addr` above 63, which does not exist (20_memory.md R40); raised by MemRead and
  MemWrite; safe -/
  | noSuchByte (addr : Nat)
  /-- a read of `A` … `H`, `W` or `Wp` while they have no value (X2); raised by EXPAND, PRIME, CLOAD, ROUND and FOLD
  outside their order in BLOCK; safe -/
  | valuelessTransient
  deriving DecidableEq, Repr

/-- Why the model has no answer. -/
inductive Refusal where
  /-- an instruction that has no meaning in the model, raised by its arm of `exec`; safe. Every command of this hardware
  has its meaning, so no arm raises it. -/
  | notModelled (mnemonic : String)
  deriving DecidableEq, Repr

/-- The state right after reset (10_state.md R33, R34), with the parameters at their defaults, nothing on the ports and
an empty history: `V = IV`, `LEN = 0`, `FILL = 0`, `PHASE = IDLE`, `CAUSE = 0`; BUF and the transient store without
value. The commands of a program come from outside the machine (assumption log 1). -/
def State.reset : State :=
  { cfg := defaultConfig
    v := defaultIv
    len := 0
    fill := 0
    phase := .idle
    cause := .noFault
    buf := []
    transient := .unspecified
    port := []
    cp := 0
    out := []
    freeCount := 0 }

end Sys2Proof.Machine
end

