-- ==== Sys2Proof/Machine/Ops.lean ====
section
/-!
DEFINITION. The shared operations over memory, registers, ports and faults: the block buffer (spec 00_scope.md R12;
20_memory.md R40 to R43), LEN (10_state.md R25), outputs (R13), fault entry and discard (60_exceptions.md R187, R188),
admission by phase (30_encoding.md R71), and reset (70_reset_and_hazards.md R200, R214).
-/

namespace Sys2Proof.Machine

/-- How one command ends. -/
abbrev Result := Host.Outcome State Fault Refusal

/-- A computation that may stop at a cell without value or existence, as the outcome of a step. -/
def settle : Except Fault State → Result
  | .ok s => .next s
  | .error f => .fault f

/-! ### The block buffer -/

/-- The byte at an address, `none` where it has no value. -/
def Memory.read : Memory → Nat → Option Byte
  | [], _ => none
  | (k, b) :: rest, a => if a = k then some b else Memory.read rest a

/-- Write one byte, keeping the addresses strictly rising. -/
def Memory.write : Memory → Nat → Byte → Memory
  | [], a, b => [(a, b)]
  | (k, c) :: rest, a, b =>
    if a < k then (a, b) :: (k, c) :: rest
    else if a = k then (a, b) :: rest
    else (k, c) :: Memory.write rest a b

/-- The addresses are strictly rising, the first of them at least `lo`, and all below 64 (R40). -/
def Memory.wfFrom : Nat → Memory → Bool
  | _, [] => true
  | lo, (k, _) :: rest => lo ≤ k && k < 64 && Memory.wfFrom (k + 1) rest

/-- The canonical form of the block buffer: addresses strictly rising and below 64. (An unlisted address has no value,
so no entry can equal what it reads as.) -/
def Memory.wf (m : Memory) : Bool := Memory.wfFrom 0 m

/-- `BUF[addr]` (R12): a byte without value, or an address that does not exist, stops the model. -/
def readByte (s : State) (addr : Nat) : Except Fault Byte :=
  if addr < 64 then
    match s.buf.read addr with
    | some b => .ok b
    | none => .error (.valuelessByte addr)
  else .error (.noSuchByte addr)

/-- `BUF[addr] <- b` (R12). -/
def storeByte (s : State) (addr : Nat) (b : Byte) : Except Fault State :=
  if addr < 64 then .ok { s with buf := s.buf.write addr b }
  else .error (.noSuchByte addr)

/-- `MemRead(addr, n) = BUF[addr] ++ BUF[addr+1] ++ … ++ BUF[addr+n−1]`, big-endian (R12, R42). -/
def memRead (s : State) (addr : Nat) : (n : Nat) → Except Fault (BitVec (8 * n))
  | 0 => .ok 0#0
  | n + 1 => do
    let high ← memRead s addr n
    let low ← readByte s (addr + n)
    .ok (high ++ low)

/-- The first `k` of the byte writes of `MemWrite(addr, n, v)`: byte `v[8(n−1−j)+7 : 8(n−1−j)]` to `BUF[addr+j]` (R12). -/
def memWriteFirst (s : State) (addr n : Nat) (v : BitVec (8 * n)) : (k : Nat) → Except Fault State
  | 0 => .ok s
  | k + 1 => do
    let s' ← memWriteFirst s addr n v k
    storeByte s' (addr + k) (v.extractLsb' (8 * (n - 1 - k)) 8)

/-- `MemWrite(addr, n, v)`, big-endian (R12, R43). -/
def memWrite (s : State) (addr n : Nat) (v : BitVec (8 * n)) : Except Fault State :=
  memWriteFirst s addr n v n

/-- `BUF[a] <- 0x00` for `a = lo .. lo + count − 1` (42_padder.md R115). -/
def storeZeros (s : State) (lo : Nat) : (count : Nat) → Except Fault State
  | 0 => .ok s
  | count + 1 => do
    let s' ← storeZeros s lo count
    storeByte s' (lo + count) 0

/-- All 64 bytes of BUF become unspecified: they have no value from here on (10_state.md R24; assumption log 6). -/
def dropBuffer (s : State) : State := { s with buf := [] }

/-- `A` … `H`, `W` and `Wp` become unspecified (10_state.md R21, R23; assumption log 7). -/
def dropTransient (s : State) : State := { s with transient := .unspecified }

/-! ### Registers and ports -/

/-- `LEN <- x`: the register keeps the low `LENW` bits (10_state.md R25; assumption log 5). -/
def writeLen (s : State) (x : BitVec 64) : State := { s with len := x &&& lenMask s.cfg }

/-- `cp <- cp + 1` (00_scope.md R15). -/
def advance (s : State) : State := { s with cp := s.cp + 1 }

/-- `emit_resp(w)` (R13). -/
def emitResp (s : State) (w : Word) : State := { s with out := s.out ++ [.resp w] }

/-- `emit_hex(c)` (R13). -/
def emitHex (s : State) (c : Byte) : State := { s with out := s.out ++ [.hex c] }

/-! ### Faults -/

/-- Fault entry (60_exceptions.md R187), the one way an engine fault is taken: `CAUSE <- c`, `PHASE <- FAULT`,
`cp <- cp + 1` and nothing else. Nothing is saved and control goes nowhere; the way back is INIT or reset (R189). -/
def raise (c : Cause) (s : State) : State :=
  advance { s with cause := c, phase := .fault }

/-- A command discarded in phase FAULT (R188): `cp` advances, and nothing else. -/
def discardCommand (s : State) : State := advance s

/-- What the engine does with a command in a phase (30_encoding.md R71). -/
inductive Admission where
  | execute
  | invalidInput
  | discard
  deriving DecidableEq, Repr

/-- The admission table (R71), one line per command and one column per phase. -/
def admission : Instr → Phase → Admission
  | .init, _ => .execute
  | .push _, .absorb => .execute
  | .push _, .fault => .discard
  | .push _, .idle => .invalidInput
  | .push _, .done => .invalidInput
  | .final, .absorb => .execute
  | .final, .fault => .discard
  | .final, .idle => .invalidInput
  | .final, .done => .invalidInput
  | .digest, .done => .execute
  | .digest, .fault => .discard
  | .digest, .idle => .invalidInput
  | .digest, .absorb => .invalidInput
  | .rdv _, _ => .execute
  | .rdlen _, _ => .execute
  | .rdst, _ => .execute

/-- A command, after the phase check of R71 and R185: its body, the fault InvalidInput, or a discard. -/
def whenAdmitted (i : Instr) (s : State) (body : Except Fault State) : Result :=
  match admission i s.phase with
  | .execute => settle body
  | .invalidInput => .next (raise .invalidInput s)
  | .discard => .next (discardCommand s)

/-- An illegal word (R65, R183, R185): the fault IllegalCommand, or a discard in phase FAULT (R188). -/
def execIllegal (s : State) : State :=
  if s.phase = .fault then discardCommand s else raise .illegalCommand s

/-! ### Reset -/

/-- The reset event between two commands (70_reset_and_hazards.md R200; 10_state.md R33, R34): the architectural state
takes its reset values and the transient state becomes unspecified. It outputs nothing and clears neither OUT (R37) nor
`cp` (R27). -/
def resetEngine (s : State) : State :=
  { s with
    v := s.cfg.iv
    len := 0
    fill := 0
    phase := .idle
    cause := .noFault
    buf := []
    transient := .unspecified }

/-- The output events a command has added to the history of `s`. -/
def outputsSince (s : State) : Result → List OutEvent
  | .next t => t.out.drop s.out.length
  | .fault _ => []
  | .refused _ => []

/-- Reset inside a command (R214): the state is the reset state however far the command had got, and an arbitrary
prefix of the command's outputs has been emitted (a free value, assumption log 8). `whole` is what the command would have
done. -/
def cutByReset (s : State) (whole : Result) : State :=
  { resetEngine s with
    out := s.out ++ (outputsSince s whole).take (Config.freePrefixLength s.freeCount)
    cp := s.cp + 1
    freeCount := s.freeCount + 1 }

end Sys2Proof.Machine
end

