-- ==== Sys2Proof/Machine/Schedule.lean ====
section
/-!
DEFINITION. The round-schedule expander (spec 43_schedule.md R130 to R133): the micro-operations LOADW, EXPAND and
PRIME on the state, and the pure function SCHED they realise.
-/

namespace Sys2Proof.Machine

/-- `W[j]` for `j = n + 16` from the words before it (R131): the taps `j−16`, `j−9`, `j−3`, `j−13`, `j−6`. -/
def nextWord {n : Nat} (w : Vector Word (n + 16)) : Word :=
  p1 (w[n] ^^^ w[n + 7] ^^^ rotl w[n + 13] 15) ^^^ rotl w[n + 3] 7 ^^^ w[n + 10]

/-- `W[0..15+n]` from `W[0..15]`, in increasing order of the index (R131). -/
def expandWords (w : Vector Word 16) : (n : Nat) → Vector Word (n + 16)
  | 0 => w.cast (Nat.zero_add 16).symm
  | n + 1 =>
    let before := expandWords w n
    (before.push (nextWord before)).cast (Nat.succ_add n 16).symm

/-- `W[0..67]` (R131): 52 further words. -/
def expandAll (w : Vector Word 16) : Vector Word 68 := expandWords w 52

/-- `Wp[j] = W[j] xor W[j+4]` for `j = 0..63` (R132). -/
def primeWords (w : Vector Word 68) : Vector Word 64 :=
  Vector.ofFn fun j => w[j.val] ^^^ w[j.val + 4]

/-- `MemRead(4·i, 4)` for `i = 0 .. n−1` (R130). -/
def loadWords (s : State) : (n : Nat) → Except Fault (Vector Word n)
  | 0 => .ok #v[]
  | n + 1 => do
    let before ← loadWords s n
    let x ← memRead s (4 * n) 4
    .ok (before.push x)

/-- `LOADW` (R130): `W[i] <- MemRead(4·i, 4)` for `i = 0..15`. -/
def loadw (s : State) : Except Fault State := do
  let w ← loadWords s 16
  .ok { s with transient := .loaded w }

/-- `EXPAND` (R131). -/
def expand (s : State) : Except Fault State :=
  match s.transient with
  | .loaded w => .ok { s with transient := .expanded (expandAll w) }
  | _ => .error .valuelessTransient

/-- `PRIME` (R132). -/
def prime (s : State) : Except Fault State :=
  match s.transient with
  | .expanded w => .ok { s with transient := .primed w (primeWords w) }
  | _ => .error .valuelessTransient

/-- Word `i` of a block, big-endian (20_memory.md R42). -/
def blockWord (b : Block) (i : Fin 16) : Word :=
  b[4 * i.val] ++ b[4 * i.val + 1] ++ b[4 * i.val + 2] ++ b[4 * i.val + 3]

/-- The first array of `SCHED(B)` (R133). -/
def schedW (b : Block) : Vector Word 68 := expandAll (Vector.ofFn (blockWord b))

/-- The second array of `SCHED(B)` (R133). -/
def schedWp (b : Block) : Vector Word 64 := primeWords (schedW b)

end Sys2Proof.Machine
end

