-- ==== Sys2Proof/Machine/Compress.lean ====
section
/-!
DEFINITION. The compression engine (spec 44_compress.md R141 to R150): the micro-operations CLOAD, ROUND and FOLD, the
procedure BLOCK that strings the expander and these together, and the pure function COMPRESS.
-/

namespace Sys2Proof.Machine

/-- The four values of one round (R142, R146): wires, recomputed in each round. -/
structure RoundWires where
  ss1 : Word
  ss2 : Word
  tt1 : Word
  tt2 : Word
  deriving DecidableEq, Repr

/-- `SS1`, `SS2`, `TT1`, `TT2` of round `j` (R142): `TT1` takes `Wp[j]` and `SS2`, `TT2` takes `W[j]` and `SS1`. -/
def roundWires (j : Nat) (r : Work) (w wp : Word) : RoundWires :=
  let ss1 := rotl (add32 (add32 (rotl r.a 12) r.e) (tRot j)) 7
  let ss2 := ss1 ^^^ rotl r.a 12
  { ss1 := ss1
    ss2 := ss2
    tt1 := add32 (add32 (add32 (ff r.a r.b r.c j) r.d) ss2) wp
    tt2 := add32 (add32 (add32 (gg r.e r.f r.g j) r.h) ss1) w }

/-- One round as a function on the eight registers, all reading the old values (R144). -/
def roundWork (j : Nat) (r : Work) (w wp : Word) : Work :=
  let x := roundWires j r w wp
  { a := x.tt1
    b := r.a
    c := rotl r.b 9
    d := r.c
    e := p0 x.tt2
    f := r.e
    g := rotl r.f 19
    h := r.g }

/-- `A` … `H` from `V` (R141). -/
def workOfV (v : Words8) : Work :=
  { a := v[0], b := v[1], c := v[2], d := v[3], e := v[4], f := v[5], g := v[6], h := v[7] }

/-- `V xor (A, …, H)` element by element (R147). -/
def foldWords (v : Words8) (r : Work) : Words8 :=
  #v[v[0] ^^^ r.a, v[1] ^^^ r.b, v[2] ^^^ r.c, v[3] ^^^ r.d,
     v[4] ^^^ r.e, v[5] ^^^ r.f, v[6] ^^^ r.g, v[7] ^^^ r.h]

/-- `CLOAD` (R141): `V` is not changed. -/
def cload (s : State) : Except Fault State :=
  match s.transient with
  | .primed w wp => .ok { s with transient := .working w wp (workOfV s.v) }
  | _ => .error .valuelessTransient

/-- `ROUND(j)` (R142 to R145). -/
def roundStep (j : Fin 64) (s : State) : Except Fault State :=
  match s.transient with
  | .working w wp r => .ok { s with transient := .working w wp (roundWork j.val r w[j.val] wp[j.val]) }
  | _ => .error .valuelessTransient

/-- `ROUND(0)`, …, `ROUND(n−1)` in increasing order (R148). -/
def rounds : (n : Nat) → n ≤ 64 → State → Except Fault State
  | 0, _, s => .ok s
  | n + 1, h, s => do
    let s' ← rounds n (Nat.le_of_succ_le h) s
    roundStep ⟨n, h⟩ s'

/-- `FOLD` (R147): with the State as it was at CLOAD, which the rounds have not changed (70_reset_and_hazards.md R210). -/
def foldState (s : State) : Except Fault State :=
  match s.transient with
  | .working _ _ r => .ok { s with v := foldWords s.v r }
  | _ => .error .valuelessTransient

/-- `BLOCK` (R148), in the order the rule writes (assumption log 9). Afterwards BUF is consumed and `A` … `H`, `W`,
`Wp` are left unspecified (assumption logs 6, 7). -/
def blockProc (s : State) : Except Fault State := do
  let s ← loadw s
  let s ← expand s
  let s ← prime s
  let s ← cload s
  let s ← rounds 64 (Nat.le_refl 64) s
  let s ← foldState s
  .ok (dropTransient (dropBuffer s))

/-- `R_n` of R149: the registers after the first `n` rounds on a schedule. -/
def roundsPure (w : Vector Word 68) (wp : Vector Word 64) : (n : Nat) → n ≤ 64 → Work → Work
  | 0, _, r => r
  | n + 1, h, r => roundWork n (roundsPure w wp n (Nat.le_of_succ_le h) r) w[n] wp[n]

/-- `COMPRESS(V, B)` (R149): a pure, total function of the eight words and the block. -/
def compress (v : Words8) (b : Block) : Words8 :=
  foldWords v (roundsPure (schedW b) (schedWp b) 64 (Nat.le_refl 64) (workOfV v))

end Sys2Proof.Machine
end

