-- ==== Sys2Proof/Machine/Padder.lean ====
section
/-!
DEFINITION. The message-block padder (spec 42_padder.md R112 to R116): the commands INIT, PUSH and FINAL and the
micro-operations APPEND and PADFIN.
-/

namespace Sys2Proof.Machine

/-- `INIT` (R112). BUF and the transient store become unspecified. -/
def initBody (s : State) : State :=
  dropTransient (dropBuffer { s with v := s.cfg.iv, len := 0, fill := 0, cause := .noFault, phase := .absorb })

/-- `APPEND(b)` (R113): store one byte, and run BLOCK when the buffer fills. -/
def appendByte (b : Byte) (s : State) : Except Fault State := do
  let s' ← storeByte s s.fill.toNat b
  if s.fill = 63 then blockProc { s' with fill := 0 }
  else .ok { s' with fill := s.fill + 1 }

/-- The body of `PUSH byte` in phase ABSORB (R114): the length check comes before every write. -/
def pushBody (b : Byte) (s : State) : Except Fault State :=
  if s.len = lenLimit s.cfg then .ok (raise .inputTooLarge s)
  else do
    let s' ← appendByte b (writeLen s (s.len + 8))
    .ok (advance s')

/-- The zero bytes of `PADFIN` (R115) after the byte 0x80 at address `n`: up to the length field if it has room in this
block, else to the end of this block, a BLOCK, and from the start of the next. -/
def padZeros (n : Nat) (s : State) : Except Fault State :=
  if 56 ≤ n then do
    let t ← storeZeros s (n + 1) (63 - n)
    let t ← blockProc t
    storeZeros t 0 56
  else storeZeros s (n + 1) (55 - n)

/-- `PADFIN` (R115): the byte 0x80, the zero bytes, the length field, and one or two BLOCKs. -/
def padfin (s : State) : Except Fault State := do
  let s1 ← storeByte s s.fill.toNat 0x80
  let s2 ← padZeros s.fill.toNat s1
  let s3 ← memWrite s2 56 8 s2.len
  let s4 ← blockProc s3
  .ok { s4 with fill := 0 }

/-- The body of `FINAL` in phase ABSORB (R116). -/
def finalBody (s : State) : Except Fault State := do
  let s' ← padfin s
  .ok (advance { s' with phase := .done })

/-- `INIT` (R112). -/
def execInit (s : State) : Result := whenAdmitted .init s (.ok (advance (initBody s)))

/-- `PUSH byte` (R114). -/
def execPush (byte : Byte) (s : State) : Result := whenAdmitted (.push byte) s (pushBody byte s)

/-- `FINAL` (R116). -/
def execFinal (s : State) : Result := whenAdmitted .final s (finalBody s)

end Sys2Proof.Machine
end

