-- ==== Sys2Proof/Machine/Flags.lean ====
section
/-!
DEFINITION. STATUS, the one control and status register (spec 10_state.md R28, R29, R31): a view of PHASE, CAUSE and
FILL. There are no arithmetic flags (R30).
-/

namespace Sys2Proof.Machine

/-- The 2-bit value of PHASE (R28). -/
def phaseCode : Phase → BitVec 2
  | .idle => 0
  | .absorb => 1
  | .done => 2
  | .fault => 3

/-- The 2-bit value of CAUSE (R29; 60_exceptions.md R180). -/
def causeCode : Cause → BitVec 2
  | .noFault => 0
  | .invalidInput => 1
  | .inputTooLarge => 2
  | .illegalCommand => 3

/-- `STATUS = zext_32( FILL ++ CAUSE ++ PHASE )` (R31; 46_readback.md R172): FILL in bits 9:4, CAUSE in 3:2, PHASE in
1:0, the reserved bits 31:10 always 0. -/
def status (s : State) : Word :=
  (s.fill ++ causeCode s.cause ++ phaseCode s.phase : BitVec 10).setWidth 32

end Sys2Proof.Machine
end

