-- ==== Sys2Proof/Machine/Operands.lean ====
section
/-!
DEFINITION. The operand forms of the commands (spec 30_encoding.md R62): a State word by index, and a half of LEN by
selector. (The byte of PUSH is its own operand.) Nothing is sign-extended, scaled or shifted.
-/

namespace Sys2Proof.Machine

/-- The operand of RDV: `V[idx]` (46_readback.md R170). -/
def stateWord (s : State) (idx : Fin 8) : Word := s.v[idx]

/-- The operand of RDLEN: `x[32·sel + 31 : 32·sel]` of `x = zext_64(LEN)` (R171). -/
def lenHalf (s : State) (sel : Fin 2) : Word := s.len.extractLsb' (32 * sel.val) 32

end Sys2Proof.Machine
end

