-- ==== Sys2Proof/Machine/Readback.lean ====
section
/-!
DEFINITION. The read-back commands (spec 46_readback.md R170 to R172): admitted in every phase, one response each, no
other effect.
-/

namespace Sys2Proof.Machine

/-- `RDV idx` (R170). -/
def execRdv (idx : Fin 8) (s : State) : Result :=
  whenAdmitted (.rdv idx) s (.ok (advance (emitResp s (stateWord s idx))))

/-- `RDLEN sel` (R171). -/
def execRdlen (sel : Fin 2) (s : State) : Result :=
  whenAdmitted (.rdlen sel) s (.ok (advance (emitResp s (lenHalf s sel))))

/-- `RDST` (R172). -/
def execRdst (s : State) : Result :=
  whenAdmitted .rdst s (.ok (advance (emitResp s (status s))))

end Sys2Proof.Machine
end

