-- ==== Sys2Proof/Machine/Serializer.lean ====
section
/-!
DEFINITION. The digest serializer (spec 45_serializer.md R160 to R162).
-/

namespace Sys2Proof.Machine

/-- `HEXCHAR(n)` (R162): the ASCII code of a lowercase hexadecimal digit. -/
def hexChar (n : Nibble) : Byte :=
  if n.toNat ≤ 9 then BitVec.ofNat 8 (0x30 + n.toNat) else BitVec.ofNat 8 (0x61 + (n.toNat - 10))

/-- The nibble of character `p`: `V[p div 8][ 31 − 4·(p mod 8) : 28 − 4·(p mod 8) ]` (R161). -/
def digestNibble (v : Words8) (p : Fin 64) : Nibble :=
  (v[p.val / 8]'(by omega)).extractLsb' (28 - 4 * (p.val % 8)) 4

/-- `HEXSTR(V)` (R161): 64 characters, index 0 first. -/
def hexStr (v : Words8) : List Byte := List.ofFn fun p => hexChar (digestNibble v p)

/-- `DIGEST` (R160): `emit_hex` of the 64 characters in increasing order. -/
def execDigest (s : State) : Result :=
  whenAdmitted .digest s (.ok (advance ((hexStr s.v).foldl emitHex s)))

end Sys2Proof.Machine
end

