-- ==== Sys2Proof/Machine/Dispatch.lean ====
section
/-! DEFINITION. One arm per command: which meaning runs it. -/

namespace Sys2Proof.Machine

def exec (i : Instr) (s : State) : Host.Outcome State Fault Refusal :=
  match i with
  | .init => Sys2Proof.Machine.execInit s
  | .push byte => Sys2Proof.Machine.execPush byte s
  | .final => Sys2Proof.Machine.execFinal s
  | .digest => Sys2Proof.Machine.execDigest s
  | .rdv idx => Sys2Proof.Machine.execRdv idx s
  | .rdlen sel => Sys2Proof.Machine.execRdlen sel s
  | .rdst => Sys2Proof.Machine.execRdst s

end Sys2Proof.Machine
end

