-- ==== Sys2Proof/Machine/Step.lean ====
section
/-!
DEFINITION. One step: the engine takes the next thing the host has done (assumption log 1). A command is one step
(spec 20_memory.md R48; 00_scope.md R17); so is a reset (70_reset_and_hazards.md R200).
-/

namespace Sys2Proof.Machine

/-- Decode and run one command word (30_encoding.md R64, R65; 60_exceptions.md R185). -/
def runWord (w : CmdWord) (s : State) : Result :=
  match decode w with
  | .command i => exec i s
  | .illegal _ => .next (execIllegal s)

/-- One host event. -/
def runEvent (e : HostEvent) (s : State) : Result :=
  match e with
  | .command w => runWord w s
  | .reset => .next (resetEngine s)
  | .commandCutByReset w => .next (cutByReset s (runWord w s))

/-- One step: take the oldest host event from the ports and act on it. With nothing on the ports the engine holds its
state (60_exceptions.md R197; 70_reset_and_hazards.md R215). -/
def step (s : State) : Host.Outcome State Fault Refusal :=
  match s.port with
  | [] => .next s
  | e :: rest => runEvent e { s with port := rest }

/-- The host sends one instruction ahead of everything it has sent so far: the very next step takes it. -/
def State.withFetchWord (s : State) (nbits w : Nat) : State :=
  { s with port := .command (tableWord nbits w) :: s.port }

end Sys2Proof.Machine
end

