-- ==== Sys2Proof/Machine/Reference.lean ====
section
/-!
DEFINITION. The reference function of the hardware, on whole byte sequences (spec 00_scope.md R16, R18; 42_padder.md
R117 to R121; 44_compress.md R150), and the command sequence that computes it (R19). Nothing here touches a state.
-/

namespace Sys2Proof.Machine

/-- `BE_n(x)`: the `n`-byte big-endian sequence of `x` (R16). -/
def beBytes (n x : Nat) : List Byte :=
  List.ofFn fun i : Fin n => BitVec.ofNat 8 (x / 2 ^ (8 * (n - 1 - i.val)))

/-- `k = (55 − (L mod 64)) mod 64`, the number of zero bytes (R119). -/
def zeroCount (len : Nat) : Nat := (64 + 55 - len % 64) % 64

/-- `PAD(m)` (R117). -/
def pad (m : List Byte) : List Byte :=
  m ++ [0x80#8] ++ List.replicate (zeroCount m.length) 0#8 ++ beBytes 8 (8 * m.length)

/-- Block `i` of a byte sequence that has one: its bytes `64·i .. 64·i + 63`. -/
def blockAt (p : List Byte) (i : Nat) : Block := Vector.ofFn fun a => p.getD (64 * i + a.val) 0

/-- The State after the first `n` blocks of a byte sequence, in block order (R150). -/
def chain (v : Words8) (p : List Byte) : (n : Nat) → Words8
  | 0 => v
  | n + 1 => compress (chain v p n) (blockAt p n)

/-- The final State of a message (R18, R150). -/
def finalState (iv : Words8) (m : List Byte) : Words8 := chain iv (pad m) ((pad m).length / 64)

/-- The two failures the source names (60_exceptions.md R181, R182), as a function on the host reports them. -/
inductive HostFailure where
  | invalidInput
  | inputTooLarge
  deriving DecidableEq, Repr

/-- `hash(m)`, defined for `len(m) ≤ MAXBYTES` (R18; 90_conflicts.md C5). -/
def hashBytes (cfg : Config) (m : List Byte) : Except HostFailure (List Byte) :=
  if m.length ≤ maxBytes cfg then .ok (hexStr (finalState cfg.iv m)) else .error .inputTooLarge

/-- The command sequence `INIT; PUSH m[0]; …; FINAL; DIGEST` of R19. -/
def hashCommands (m : List Byte) : List Instr := .init :: m.map .push ++ [.final, .digest]

end Sys2Proof.Machine
end

