-- ==== Sys2Proof/Machine/Assembler.lean ====
section
/-!
DEFINITION. The notation of the spec's command lists (spec 30_encoding.md R68, R69), as source lines that expand to
command words. It is no hardware: `.word` can write an illegal word on purpose.
-/

namespace Sys2Proof.Machine

/-- One source line. Numbers are as written, so a line can be ill formed. -/
inductive SourceLine where
  | init
  | push (b : Nat)
  | final
  | digest
  | rdv (i : Nat)
  | rdlen (s : Nat)
  | rdst
  /-- `.word w`: the literal 16-bit word -/
  | word (w : Nat)
  /-- `PUSHS "text"` -/
  | pushs (text : List Char)
  /-- `PUSHX h` -/
  | pushx (h : List Char)
  /-- `PUSHN n, b` -/
  | pushn (n b : Nat)
  /-- `HASH "text"` -/
  | hash (text : List Char)
  /-- `RDVALL` -/
  | rdvall
  deriving DecidableEq, Repr

/-- The value of a hexadecimal digit, in either case (assumption log 14). -/
def hexDigitValue (c : Char) : Option Nat :=
  let n := c.toNat
  if 0x30 ≤ n ∧ n ≤ 0x39 then some (n - 0x30)
  else if 0x41 ≤ n ∧ n ≤ 0x46 then some (n - 0x41 + 10)
  else if 0x61 ≤ n ∧ n ≤ 0x66 then some (n - 0x61 + 10)
  else none

/-- The bytes of a hexadecimal string, left to right; `none` if a digit is no digit or the length is odd. -/
def hexBytes : List Char → Option (List Byte)
  | [] => some []
  | [_] => none
  | hi :: lo :: rest =>
    match hexDigitValue hi, hexDigitValue lo, hexBytes rest with
    | some x, some y, some more => some (BitVec.ofNat 8 (16 * x + y) :: more)
    | _, _, _ => none

/-- PUSHS and HASH take ASCII text only (R69). -/
def isAscii (text : List Char) : Bool := text.all fun c => c.toNat < 0x80

/-- The operand ranges of R68 and R69. -/
def SourceLine.wellFormed : SourceLine → Bool
  | .init => true
  | .push b => b ≤ 255
  | .final => true
  | .digest => true
  | .rdv i => i ≤ 7
  | .rdlen s => s ≤ 1
  | .rdst => true
  | .word w => w ≤ 65535
  | .pushs text => isAscii text
  | .pushx h => (hexBytes h).isSome
  | .pushn _ b => b ≤ 255
  | .hash text => isAscii text
  | .rdvall => true

/-- `PUSH c` for each character of ASCII text, in order (R69). -/
def pushText (text : List Char) : List CmdWord := text.map fun c => BitVec.ofNat 16 (0x2000 + c.toNat)

/-- The words of a well-formed line (R68, R69). -/
def SourceLine.words : SourceLine → List CmdWord
  | .init => [0x1000#16]
  | .push b => [BitVec.ofNat 16 (0x2000 + b)]
  | .final => [0x3000#16]
  | .digest => [0x4000#16]
  | .rdv i => [BitVec.ofNat 16 (0x5000 + i)]
  | .rdlen s => [BitVec.ofNat 16 (0x6000 + s)]
  | .rdst => [0x7000#16]
  | .word w => [BitVec.ofNat 16 w]
  | .pushs text => pushText text
  | .pushx h => ((hexBytes h).getD []).map fun b => BitVec.ofNat 16 (0x2000 + b.toNat)
  | .pushn n b => List.replicate n (BitVec.ofNat 16 (0x2000 + b))
  | .hash text => 0x1000#16 :: pushText text ++ [0x3000#16, 0x4000#16]
  | .rdvall => List.ofFn fun i : Fin 8 => BitVec.ofNat 16 (0x5000 + i.val)

/-- The words of a list of lines, `none` if a line is ill formed. -/
def assemble : List SourceLine → Option (List CmdWord)
  | [] => some []
  | line :: rest =>
    if line.wellFormed then (assemble rest).map fun more => line.words ++ more else none

end Sys2Proof.Machine
end

