-- ==== Sys2Proof/Machine/ByteEncoder.lean ====
section
/-!
DEFINITION. The byte encoder of the host (spec 41_byte_encoder.md R100 to R108). It describes no hardware (00_scope.md
R5): it is the pure function a host applies before it sends PUSH commands, so that `passwordDigest` can be stated end to
end (assumption log 12).
-/

namespace Sys2Proof.Machine

/-- `c[hi:lo]` of a code point (00_scope.md R11). -/
def pointBits (c hi lo : Nat) : Nat := (c / 2 ^ lo) % 2 ^ (hi + 1 - lo)

/-- A byte of an encoded point: a marker OR some bits of the point. -/
def markedByte (marker bits : Nat) : Byte := BitVec.ofNat 8 marker ||| BitVec.ofNat 8 bits

/-- `enc(c)` (R101 to R105): a surrogate or a value above 0x10FFFF is not encodable. -/
def encodePoint (c : Nat) : Except HostFailure (List Byte) :=
  if c < 0x80 then .ok [BitVec.ofNat 8 c]
  else if c ≤ 0x7FF then .ok [markedByte 0xC0 (pointBits c 10 6), markedByte 0x80 (pointBits c 5 0)]
  else if 0xD800 ≤ c ∧ c ≤ 0xDFFF then .error .invalidInput
  else if c ≤ 0xFFFF then
    .ok [markedByte 0xE0 (pointBits c 15 12), markedByte 0x80 (pointBits c 11 6), markedByte 0x80 (pointBits c 5 0)]
  else if c ≤ 0x10FFFF then
    .ok [markedByte 0xF0 (pointBits c 20 18), markedByte 0x80 (pointBits c 17 12), markedByte 0x80 (pointBits c 11 6),
      markedByte 0x80 (pointBits c 5 0)]
  else .error .invalidInput

/-- `utf8Bytes(s)` (R100, R105): one point that is not encodable makes the whole string fail. -/
def utf8Bytes : List Nat → Except HostFailure (List Byte)
  | [] => .ok []
  | c :: rest => do
    let bytes ← encodePoint c
    let more ← utf8Bytes rest
    .ok (bytes ++ more)

/-- A 16-bit unit that opens a surrogate pair (R106). -/
def isHighSurrogate (u : BitVec 16) : Bool := 0xD800 ≤ u.toNat && u.toNat ≤ 0xDBFF

/-- A 16-bit unit that closes a surrogate pair (R106). -/
def isLowSurrogate (u : BitVec 16) : Bool := 0xDC00 ≤ u.toNat && u.toNat ≤ 0xDFFF

/-- 16-bit code units to code points (R106): a valid pair becomes one point, an unpaired surrogate fails. -/
def combineUnits : List (BitVec 16) → Except HostFailure (List Nat)
  | [] => .ok []
  | [u] => if isHighSurrogate u || isLowSurrogate u then .error .invalidInput else .ok [u.toNat]
  | u :: l :: rest =>
    if isHighSurrogate u then
      if isLowSurrogate l then do
        let points ← combineUnits rest
        .ok ((0x10000 + (u.toNat - 0xD800) * 0x400 + (l.toNat - 0xDC00)) :: points)
      else .error .invalidInput
    else if isLowSurrogate u then .error .invalidInput
    else do
      let points ← combineUnits (l :: rest)
      .ok (u.toNat :: points)

/-- A value the host may be given as text (R100, R106, R108). -/
inductive HostValue where
  /-- null, undefined, or another value that is no string (R108) -/
  | notAString
  /-- a sequence of code points (R100) -/
  | points (s : List Nat)
  /-- a sequence of 16-bit code units (R106) -/
  | units (s : List (BitVec 16))
  deriving DecidableEq, Repr

/-- The bytes the host pushes for a value; a failure is reported before any PUSH (R105, R108). -/
def hostBytes : HostValue → Except HostFailure (List Byte)
  | .notAString => .error .invalidInput
  | .points s => utf8Bytes s
  | .units s => do
    let points ← combineUnits s
    utf8Bytes points

/-- `passwordDigest(password) = hash(utf8Bytes(password))` (R107). -/
def passwordDigest (cfg : Config) (password : HostValue) : Except HostFailure (List Byte) := do
  let bytes ← hostBytes password
  hashBytes cfg bytes

end Sys2Proof.Machine
end

