-- ==== Sys2Proof/Safety.lean ====
section
/-!
DEFINITION. What counts as a safe run, and the invariants that claims use (spec 10_state.md R24, R36; 95_test_vectors.md
section 10). A run is SAFE if no step stops: the engine's own faults are next states, and the model's stops are reads of
cells without value.
-/

namespace Sys2Proof.Machine

/-- The step from `s` completes. -/
def StepCompletes (s : State) : Prop := ∃ t, step s = .next t

/-- The run of `n` steps from `s` completes and ends in `t`. -/
def RunsTo (n : Nat) (s t : State) : Prop := Sys2Proof.core.run n s = .next t

/-- What holds of every state between commands that the engine reaches from reset, as far as it can be said without the
message itself (R24, R36 (a) to (e); R21, R23 for the transient store). -/
structure Inv (s : State) : Prop where
  /-- R36 (a) -/
  lenAligned : s.len.toNat % 8 = 0
  /-- R36 (a) -/
  lenFits : s.len.toNat ≤ 2 ^ s.cfg.lenw.bits - 8
  /-- R36 (b) -/
  faultIffCause : s.phase = .fault ↔ s.cause ≠ .noFault
  /-- R36 (c), the part about FILL -/
  fillInAbsorb : s.phase = .absorb → s.fill.toNat = s.len.toNat / 8 % 64
  /-- R36 (d) -/
  fillOutside : s.phase = .idle ∨ s.phase = .done → s.fill = 0
  /-- R36 (e) -/
  idleFresh : s.phase = .idle → s.v = s.cfg.iv ∧ s.len = 0
  /-- the buffer is in canonical form -/
  bufWf : s.buf.wf = true
  /-- R24: exactly the bytes below FILL have a value -/
  bufBelowFill : ∀ a, (s.buf.read a).isSome = true ↔ a < s.fill.toNat
  /-- R21, R23: between commands the transient store has no content -/
  transientOff : s.transient = .unspecified

/-- The engine has absorbed exactly the message bytes `m` since the last INIT (R24, R25, R26, R36 (c)). The phase is
said separately: a fault keeps all of this (R36 (g)). -/
structure Absorbed (m : List Byte) (s : State) : Prop where
  size : m.length ≤ maxBytes s.cfg
  len : s.len.toNat = 8 * m.length
  fill : s.fill.toNat = m.length % 64
  state : s.v = chain s.cfg.iv m (m.length / 64)
  bytes : ∀ a, s.buf.read a = m[64 * (m.length / 64) + a]?

/-- The engine holds the final State of the message `m` (R36 (d), (f)). -/
structure Finished (m : List Byte) (s : State) : Prop where
  size : m.length ≤ maxBytes s.cfg
  len : s.len.toNat = 8 * m.length
  fill : s.fill = 0
  state : s.v = finalState s.cfg.iv m
  bytes : ∀ a, s.buf.read a = none

/-- The invariant with the message (R36): in IDLE nothing has been absorbed; in ABSORB some message has been absorbed and
its complete blocks folded; in DONE the State is the final State of some message; in FAULT the state is as it was before
the faulting command, one of these. -/
def Traced (s : State) : Prop :=
  match s.phase with
  | .idle => Absorbed [] s
  | .absorb => ∃ m, Absorbed m s
  | .done => ∃ m, Finished m s
  | .fault => ∃ m, Absorbed m s ∨ Finished m s

/-- Two states that differ in hidden state only (R32): in the transient store and in the bytes of BUF at and above FILL.
Everything else, the ports and the history included, is the same. -/
structure HiddenOnly (s s' : State) : Prop where
  visible : { s' with buf := s.buf, transient := s.transient } = s
  bytes : ∀ a, a < s.fill.toNat → s'.buf.read a = s.buf.read a

end Sys2Proof.Machine
end

