-- ==== Sys2Proof/Certificates/Slice0/Obligations.lean ====
section
/-!
DEFINITION. The statements for the provers. Each docstring names the rules of the spec it rests on; where a clause rests on
a choice of the model, it names the log entry.
-/

open Sys2Proof Sys2Proof.Machine

/-! ### Encoding -/

/-- R63, R64, R68: every command is what its word decodes to, at every value of its operand. -/
def Obligations.DecodeOfEncodeIsIdentity : Prop :=
  ∀ i : Instr, decode (encode i) = .command i

/-- R63, R64: a command has one word. -/
def Obligations.EncodeOfDecodeIsIdentity : Prop :=
  ∀ (w : CmdWord) (i : Instr), decode w = .command i → encode i = w

/-- R61, R62, R65: the words that decode to a command are those whose three fields are legal. -/
def Obligations.WordDecodesIffFieldsLegal : Prop :=
  ∀ w : CmdWord, (∃ i, decode w = .command i) ↔ (Fields.ofWord w).legal = true

/-- R63: the seven match and mask pairs; their match sets are disjoint; a word is the command of a row if and only if the
row matches it. -/
def Obligations.OpcodeMapMatchesWords : Prop :=
  opcodeTable.map (fun r => (r.mnemonic, r.bits, r.mask)) =
    [("INIT", 0x1000#16, 0xFFFF#16), ("PUSH", 0x2000#16, 0xFF00#16), ("FINAL", 0x3000#16, 0xFFFF#16),
     ("DIGEST", 0x4000#16, 0xFFFF#16), ("RDV", 0x5000#16, 0xFFF8#16), ("RDLEN", 0x6000#16, 0xFFFE#16),
     ("RDST", 0x7000#16, 0xFFFF#16)] ∧
  opcodeTable.Pairwise (fun r q => ∀ w, ¬ (w &&& r.mask = r.bits ∧ w &&& q.mask = q.bits)) ∧
  ∀ r ∈ opcodeTable, ∀ w : CmdWord, w &&& r.mask = r.bits ↔ ∃ i, decode w = .command i ∧ i.row = r

/-- R63, R65: words written out bit by bit from the spec's patterns. (The names of the illegal reasons are the model's,
log 11.) -/
def Obligations.WrittenWordsDecode : Prop :=
  decode 0b0001000000000000#16 = .command .init ∧
  decode 0b0010000001100001#16 = .command (.push 0x61#8) ∧
  decode 0b0011000000000000#16 = .command .final ∧
  decode 0b0100000000000000#16 = .command .digest ∧
  decode 0b0101000000000111#16 = .command (.rdv 7) ∧
  decode 0b0110000000000001#16 = .command (.rdlen 1) ∧
  decode 0b0111000000000000#16 = .command .rdst ∧
  decode 0x0000#16 = .illegal (.opcodeNotInUse 0#4) ∧
  decode 0xFFFF#16 = .illegal (.opcodeNotInUse 15#4) ∧
  decode 0x1100#16 = .illegal .zeroFieldSet ∧
  decode 0x5008#16 = .illegal .immBitsSet

/-! ### The step -/

/-- R48, R64: the step whose next host event is a word that decodes to an instruction is that instruction, run on the state
with the word taken from the port. (The port is the model's, log 1.) -/
def Obligations.StepRunsDecodedInstruction : Prop :=
  ∀ (s : State) (w : CmdWord) (rest : List HostEvent) (i : Instr),
    s.port = .command w :: rest → decode w = .command i → step s = exec i { s with port := rest }

/-- R183: a word that matches no row of the opcode table takes the fault IllegalCommand in IDLE, ABSORB and DONE. (In FAULT it
is discarded, R188.) -/
def Obligations.StepTakesIllegalWord : Prop :=
  ∀ (s : State) (w : CmdWord) (rest : List HostEvent),
    s.port = .command w :: rest → (∀ r ∈ opcodeTable, w &&& r.mask ≠ r.bits) →
    (s.phase ≠ .fault →
      step s = .next { s with port := rest, cause := .illegalCommand, phase := .fault, cp := s.cp + 1 }) ∧
    (s.phase = .fault → step s = .next { s with port := rest, cp := s.cp + 1 })

/-- R197, R215: with nothing sent by the host the engine holds its state. (The model's step is then the identity, log 1.) -/
def Obligations.StepWithNothingSentHoldsState : Prop :=
  ∀ s : State, s.port = [] → step s = .next s

/-! ### Datapath -/

/-- R80. -/
def Obligations.AdditionWrapsModulo : Prop :=
  (∀ x y : Word, (add32 x y).toNat = (x.toNat + y.toNat) % 2 ^ 32) ∧
  (∀ x y : Word, add32 x y = add32 y x) ∧
  (∀ x y z : Word, add32 (add32 x y) z = add32 x (add32 y z)) ∧
  (∀ x y z u : Word, (add32 (add32 (add32 x y) z) u).toNat = (x.toNat + y.toNat + z.toNat + u.toNat) % 2 ^ 32) ∧
  add32 0xFFFFFFFF#32 1#32 = 0#32 ∧ add32 0x80000000#32 0x80000000#32 = 0#32 ∧
  add32 0xFFFFFFFF#32 0xFFFFFFFF#32 = 0xFFFFFFFE#32 ∧ add32 0#32 0#32 = 0#32 ∧
  add32 0x7380166f#32 0xa96f30bc#32 = 0x1cef472b#32

/-- R82: the arithmetic of the rotation, where each bit goes, and the spec's examples. -/
def Obligations.RotationIsCircular : Prop :=
  (∀ (x : Word) (n : Nat), n ≤ 31 →
    (1 ≤ n → (rotl x n).toNat = (x.toNat * 2 ^ n) % 2 ^ 32 + x.toNat / 2 ^ (32 - n)) ∧
    (n = 0 → rotl x n = x) ∧
    ∀ i, i < 32 → (rotl x n).getLsbD ((i + n) % 32) = x.getLsbD i) ∧
  rotl 0x80000000#32 1 = 1#32 ∧ rotl 1#32 31 = 0x80000000#32 ∧ rotl 0xFFFFFFFF#32 7 = 0xFFFFFFFF#32 ∧
  rotl 0x12345678#32 4 = 0x23456781#32 ∧ rotl 0x12345678#32 12 = 0x45678123#32 ∧
  rotl 0x7380166f#32 12 = 0x0166f738#32

/-- R83, R84: each bit of P0 and P1 is the exclusive or of three bits of the operand. -/
def Obligations.PermutationsByBits : Prop :=
  ∀ (x : Word) (i : Nat), i < 32 →
    (p0 x).getLsbD i = (x.getLsbD i ^^ x.getLsbD ((i + (32 - 9)) % 32) ^^ x.getLsbD ((i + (32 - 17)) % 32)) ∧
    (p1 x).getLsbD i = (x.getLsbD i ^^ x.getLsbD ((i + (32 - 15)) % 32) ^^ x.getLsbD ((i + (32 - 23)) % 32))

/-- R86, R87, R143: FF and GG bit by bit. -/
def Obligations.RoundFunctionsByBits : Prop :=
  ∀ (x y z : Word) (j i : Nat), i < 32 →
    (j < 16 →
      (ff x y z j).getLsbD i = (x.getLsbD i ^^ y.getLsbD i ^^ z.getLsbD i) ∧
      (gg x y z j).getLsbD i = (x.getLsbD i ^^ y.getLsbD i ^^ z.getLsbD i)) ∧
    (16 ≤ j →
      (ff x y z j).getLsbD i =
        decide (2 ≤ (x.getLsbD i).toNat + (y.getLsbD i).toNat + (z.getLsbD i).toNat) ∧
      (gg x y z j).getLsbD i = if x.getLsbD i then y.getLsbD i else z.getLsbD i)

/-- R85, R88, R145: the round constants and the table of rotated constants. -/
def Obligations.RotatedConstantTable : Prop :=
  (∀ j, j < 16 → tConst j = 0x79cc4519#32) ∧
  (∀ j, 16 ≤ j → j ≤ 63 → tConst j = 0x7a879d8a#32) ∧
  (∀ j, tRot j = rotl (tConst j) (j % 32)) ∧
  (List.range 16).map tRot =
    [0x79cc4519#32, 0xf3988a32#32, 0xe7311465#32, 0xce6228cb#32, 0x9cc45197#32, 0x3988a32f#32, 0x7311465e#32,
     0xe6228cbc#32, 0xcc451979#32, 0x988a32f3#32, 0x311465e7#32, 0x6228cbce#32, 0xc451979c#32, 0x88a32f39#32,
     0x11465e73#32, 0x228cbce6#32] ∧
  (List.range 16).map (fun j => tRot (16 + j)) =
    [0x9d8a7a87#32, 0x3b14f50f#32, 0x7629ea1e#32, 0xec53d43c#32, 0xd8a7a879#32, 0xb14f50f3#32, 0x629ea1e7#32,
     0xc53d43ce#32, 0x8a7a879d#32, 0x14f50f3b#32, 0x29ea1e76#32, 0x53d43cec#32, 0xa7a879d8#32, 0x4f50f3b1#32,
     0x9ea1e762#32, 0x3d43cec5#32] ∧
  (List.range 16).map (fun j => tRot (32 + j)) =
    [0x7a879d8a#32, 0xf50f3b14#32, 0xea1e7629#32, 0xd43cec53#32, 0xa879d8a7#32, 0x50f3b14f#32, 0xa1e7629e#32,
     0x43cec53d#32, 0x879d8a7a#32, 0x0f3b14f5#32, 0x1e7629ea#32, 0x3cec53d4#32, 0x79d8a7a8#32, 0xf3b14f50#32,
     0xe7629ea1#32, 0xcec53d43#32] ∧
  ∀ j, 16 ≤ j → j ≤ 31 → tRot (j + 32) = tRot j

/-! ### Schedule and compression -/

/-- R42, R130, R131, R132: the two arrays of a block. -/
def Obligations.ScheduleFollowsRecurrence : Prop :=
  ∀ b : Block,
    (∀ i (h : i < 16), (schedW b)[i].toNat =
      b[4 * i].toNat * 2 ^ 24 + b[4 * i + 1].toNat * 2 ^ 16 + b[4 * i + 2].toNat * 2 ^ 8 + b[4 * i + 3].toNat) ∧
    (∀ j (h : 16 ≤ j ∧ j ≤ 67), (schedW b)[j] =
      p1 ((schedW b)[j - 16] ^^^ (schedW b)[j - 9] ^^^ rotl (schedW b)[j - 3] 15) ^^^ rotl (schedW b)[j - 13] 7
        ^^^ (schedW b)[j - 6]) ∧
    ∀ j (h : j ≤ 63), (schedWp b)[j] = (schedW b)[j] ^^^ (schedW b)[j + 4]

/-- R142, R144: one round on the state writes the eight registers at once from their old values, and nothing else. -/
def Obligations.RoundWritesSimultaneously : Prop :=
  ∀ (s : State) (j : Fin 64) (w : Vector Word 68) (wp : Vector Word 64) (r : Work),
    s.transient = .working w wp r →
    let ss1 := rotl (rotl r.a 12 + r.e + tRot j.val) 7
    let ss2 := ss1 ^^^ rotl r.a 12
    let tt1 := ff r.a r.b r.c j.val + r.d + ss2 + wp[j.val]
    let tt2 := gg r.e r.f r.g j.val + r.h + ss1 + w[j.val]
    roundStep j s = .ok { s with
      transient := .working w wp
        { a := tt1, b := r.a, c := rotl r.b 9, d := r.c, e := p0 tt2, f := r.e, g := rotl r.f 19, h := r.g } }

/-- R149: COMPRESS is 64 rounds from the tuple of `V` on the schedule of the block, folded into `V` by exclusive or. -/
def Obligations.CompressIsFoldOfRounds : Prop :=
  ∀ (v : Words8) (b : Block), ∃ r : Nat → Work,
    r 0 = { a := v[0], b := v[1], c := v[2], d := v[3], e := v[4], f := v[5], g := v[6], h := v[7] } ∧
    (∀ j (h : j < 64), r (j + 1) = roundWork j (r j) (schedW b)[j] (schedWp b)[j]) ∧
    compress v b =
      #v[v[0] ^^^ (r 64).a, v[1] ^^^ (r 64).b, v[2] ^^^ (r 64).c, v[3] ^^^ (r 64).d,
         v[4] ^^^ (r 64).e, v[5] ^^^ (r 64).f, v[6] ^^^ (r 64).g, v[7] ^^^ (r 64).h]

/-- R148, R149: BLOCK on a buffer whose 64 bytes have values folds COMPRESS of them into `V` and changes nothing else but
what it leaves unspecified (logs 6, 7). -/
def Obligations.BlockFoldsCompress : Prop :=
  ∀ (s : State) (b : Block), (∀ a (h : a < 64), s.buf.read a = some b[a]) →
    blockProc s = .ok { s with v := compress s.v b, buf := [], transient := .unspecified }

/-- R24, R34 and 93_implementation_defined.md X1: BLOCK on a buffer with a byte that has no value stops at the first such
byte (the model's fault, log 6). -/
def Obligations.BlockStopsAtValuelessByte : Prop :=
  ∀ (s : State) (a : Nat), a < 64 → (∀ x, x < a → (s.buf.read x).isSome = true) → s.buf.read a = none →
    blockProc s = .error (.valuelessByte a)

/-! ### Padder -/

/-- R112: INIT in every state, FAULT included. (BUF and the transient store become unspecified, logs 6, 7.) -/
def Obligations.InitOpensMessage : Prop :=
  ∀ s : State, ∃ t, exec .init s = .next t ∧
    t = { s with v := s.cfg.iv, len := 0, fill := 0, cause := .noFault, phase := .absorb, buf := [],
                 transient := .unspecified, cp := s.cp + 1 } ∧
    status t = 0x00000001#32

/-- R113, R114: PUSH in phase ABSORB of a byte that does not fill the buffer: LEN and FILL count it, one byte of BUF is
written, every other byte reads as before, and nothing else changes. (LEN keeps LENW bits, log 5.) -/
def Obligations.PushStoresByte : Prop :=
  ∀ (s : State) (b : Byte), s.phase = .absorb → s.len.toNat ≠ 2 ^ s.cfg.lenw.bits - 8 → s.fill.toNat ≠ 63 →
    ∃ m, exec (.push b) s =
        .next { s with len := (s.len + 8) &&& BitVec.ofNat 64 (2 ^ s.cfg.lenw.bits - 1), fill := s.fill + 1, buf := m,
                       cp := s.cp + 1 } ∧
      m.read s.fill.toNat = some b ∧ ∀ a, a ≠ s.fill.toNat → m.read a = s.buf.read a

/-- R113, R114, R148: PUSH in phase ABSORB of the byte that fills the buffer runs BLOCK on the 64 bytes, the pushed one the
last. (BUF and the transient store become unspecified, logs 6, 7; LEN keeps LENW bits, log 5.) -/
def Obligations.PushOfLastByteFoldsBlock : Prop :=
  ∀ (s : State) (b : Byte) (B : Block), s.phase = .absorb → s.len.toNat ≠ 2 ^ s.cfg.lenw.bits - 8 →
    s.fill.toNat = 63 → (∀ a (h : a < 63), s.buf.read a = some B[a]) → B[63] = b →
    exec (.push b) s =
      .next { s with v := compress s.v B, len := (s.len + 8) &&& BitVec.ofNat 64 (2 ^ s.cfg.lenw.bits - 1), fill := 0,
                     buf := [], transient := .unspecified, cp := s.cp + 1 }

/-- R114, R182, R187: PUSH at the largest LEN takes the fault InputTooLarge and writes nothing else. -/
def Obligations.PushAtLimitFaults : Prop :=
  ∀ (s : State) (b : Byte), s.phase = .absorb → s.len.toNat = 2 ^ s.cfg.lenw.bits - 8 →
    exec (.push b) s = .next { s with cause := .inputTooLarge, phase := .fault, cp := s.cp + 1 }

/-- R25: LEN stays a multiple of 8 that fits LENW bits, and changes only by INIT, which clears it, and by PUSH, which adds
8 without wrapping. -/
def Obligations.LengthCountsWithoutWrapping : Prop :=
  ∀ (i : Instr) (s t : State), s.len.toNat % 8 = 0 → s.len.toNat ≤ 2 ^ s.cfg.lenw.bits - 8 → exec i s = .next t →
    t.len.toNat % 8 = 0 ∧ t.len.toNat ≤ 2 ^ s.cfg.lenw.bits - 8 ∧
    (t.len = s.len ∨ (i = .init ∧ t.len = 0) ∨ (∃ b, i = .push b) ∧ t.len.toNat = s.len.toNat + 8)

/-- R115, R116, R118: FINAL with FILL at most 55 pads and compresses one block: the bytes pushed, 0x80, zero bytes, and the
bit length big-endian in the last eight bytes. (BUF and the transient store become unspecified, logs 6, 7.) -/
def Obligations.FinalWithRoomCompressesOneBlock : Prop :=
  ∀ (s : State) (B : Block), s.phase = .absorb → s.fill.toNat ≤ 55 →
    (∀ a (h : a < 64), a < s.fill.toNat → s.buf.read a = some B[a]) →
    (∀ a (h : a < 64), a = s.fill.toNat → B[a] = 0x80#8) →
    (∀ a (h : a < 64), s.fill.toNat < a → a < 56 → B[a] = 0#8) →
    (∀ k (h : k < 8), B[56 + k].toNat = s.len.toNat / 2 ^ (8 * (7 - k)) % 256) →
    exec .final s =
      .next { s with v := compress s.v B, fill := 0, phase := .done, buf := [], transient := .unspecified,
                     cp := s.cp + 1 }

/-- R115, R116, R118: FINAL with FILL at least 56 pads and compresses two blocks: the bytes pushed, 0x80 and zero bytes to
the end of the first; zero bytes and the bit length in the second. (Logs 6, 7 as above.) -/
def Obligations.FinalWithoutRoomCompressesTwoBlocks : Prop :=
  ∀ (s : State) (B C : Block), s.phase = .absorb → 56 ≤ s.fill.toNat →
    (∀ a (h : a < 64), a < s.fill.toNat → s.buf.read a = some B[a]) →
    (∀ a (h : a < 64), a = s.fill.toNat → B[a] = 0x80#8) →
    (∀ a (h : a < 64), s.fill.toNat < a → B[a] = 0#8) →
    (∀ a (h : a < 56), C[a] = 0#8) →
    (∀ k (h : k < 8), C[56 + k].toNat = s.len.toNat / 2 ^ (8 * (7 - k)) % 256) →
    exec .final s =
      .next { s with v := compress (compress s.v B) C, fill := 0, phase := .done, buf := [],
                     transient := .unspecified, cp := s.cp + 1 }

/-! ### Faults -/

/-- R181: InvalidInput is raised by PUSH and FINAL in IDLE and DONE and by DIGEST in IDLE and ABSORB, and in no other
case. -/
def Obligations.InvalidInputExactlyOutOfOrder : Prop :=
  ∀ (s : State),
    (s.phase = .idle ∨ s.phase = .done →
      (∀ b, exec (.push b) s = .next { s with cause := .invalidInput, phase := .fault, cp := s.cp + 1 }) ∧
      exec .final s = .next { s with cause := .invalidInput, phase := .fault, cp := s.cp + 1 }) ∧
    (s.phase = .idle ∨ s.phase = .absorb →
      exec .digest s = .next { s with cause := .invalidInput, phase := .fault, cp := s.cp + 1 }) ∧
    ∀ (w : CmdWord) (t : State), s.phase ≠ .fault → runWord w s = .next t → t.phase = .fault →
      t.cause = .invalidInput →
      ((∃ b, decode w = .command (.push b)) ∨ decode w = .command .final) ∧ (s.phase = .idle ∨ s.phase = .done) ∨
      decode w = .command .digest ∧ (s.phase = .idle ∨ s.phase = .absorb)

/-- R188: in phase FAULT every command but INIT, RDV, RDLEN and RDST, and every illegal word, only advances `cp`; the
read-back commands work as in any phase. -/
def Obligations.FaultPhaseDiscards : Prop :=
  ∀ (s : State) (w : CmdWord), s.phase = .fault →
    ((∃ b, decode w = .command (.push b)) ∨ decode w = .command .final ∨ decode w = .command .digest ∨
        (∃ y, decode w = .illegal y) → runWord w s = .next { s with cp := s.cp + 1 }) ∧
    (∀ i, decode w = .command (.rdv i) →
      runWord w s = .next { s with out := s.out ++ [.resp s.v[i]], cp := s.cp + 1 }) ∧
    (∀ x, decode w = .command (.rdlen x) →
      runWord w s = .next { s with out := s.out ++ [.resp (s.len.extractLsb' (32 * x.val) 32)], cp := s.cp + 1 }) ∧
    (decode w = .command .rdst → runWord w s = .next { s with out := s.out ++ [.resp (status s)], cp := s.cp + 1 })

/-- R187: a command that raises a fault changes PHASE and CAUSE, advances `cp`, and changes nothing else; a following RDST
answers FAULT and the cause. -/
def Obligations.FaultEntryChangesNothingElse : Prop :=
  ∀ (w : CmdWord) (s t : State), s.phase ≠ .fault → runWord w s = .next t → t.phase = .fault →
    t.cause ≠ .noFault ∧ t = { s with cause := t.cause, phase := .fault, cp := s.cp + 1 } ∧
    ∃ r : Word, exec .rdst t = .next { t with out := t.out ++ [.resp r], cp := t.cp + 1 } ∧ r.toNat % 4 = 3 ∧
      r.toNat / 4 % 4 =
        match t.cause with | .noFault => 0 | .invalidInput => 1 | .inputTooLarge => 2 | .illegalCommand => 3

/-- R185: which fault, in the order FAULT phase, illegal word, phase, length. -/
def Obligations.FaultPriority : Prop :=
  ∀ (w : CmdWord) (s : State),
    (s.phase = .fault → ∀ t, runWord w s = .next t → t.phase = .fault → t.cause = s.cause) ∧
    (s.phase ≠ .fault → (∃ y, decode w = .illegal y) →
      runWord w s = .next { s with cause := .illegalCommand, phase := .fault, cp := s.cp + 1 }) ∧
    (s.phase ≠ .fault →
      (((∃ b, decode w = .command (.push b)) ∨ decode w = .command .final) ∧ s.phase ≠ .absorb) ∨
        (decode w = .command .digest ∧ s.phase ≠ .done) →
      runWord w s = .next { s with cause := .invalidInput, phase := .fault, cp := s.cp + 1 }) ∧
    (s.phase = .absorb → (∃ b, decode w = .command (.push b)) → s.len.toNat = 2 ^ s.cfg.lenw.bits - 8 →
      runWord w s = .next { s with cause := .inputTooLarge, phase := .fault, cp := s.cp + 1 })

/-- R189: a step that leaves FAULT is an INIT, which clears CAUSE and starts from IV, or a reset (between or inside
commands). -/
def Obligations.FaultLeftOnlyByInitOrReset : Prop :=
  ∀ s t : State, s.phase = .fault → step s = .next t → t.phase ≠ .fault →
    (∃ w rest, s.port = .command w :: rest ∧ decode w = .command .init ∧
      t.phase = .absorb ∧ t.cause = .noFault ∧ t.v = s.cfg.iv ∧ t.len = 0 ∧ t.fill = 0) ∨
    ((∃ rest, s.port = .reset :: rest) ∨ (∃ w rest, s.port = .commandCutByReset w :: rest)) ∧
      t.phase = .idle ∧ t.cause = .noFault ∧ t.v = s.cfg.iv ∧ t.len = 0 ∧ t.fill = 0

/-- R20, R148: of the commands only INIT, the PUSH that fills the buffer, and FINAL write `V`. -/
def Obligations.StateWordsWrittenOnlyByInitAndBlock : Prop :=
  ∀ (i : Instr) (s t : State), exec i s = .next t → t.v ≠ s.v →
    (i = .init ∧ t.v = s.cfg.iv) ∨
    (∃ b, i = .push b ∧ s.phase = .absorb ∧ s.fill.toNat = 63 ∧ ∃ B, t.v = compress s.v B) ∨
    (i = .final ∧ s.phase = .absorb ∧ ∃ B, t.v = compress s.v B ∨ ∃ C, t.v = compress (compress s.v B) C)

/-! ### Serializer and read-back -/

/-- R160, R161: DIGEST in DONE emits 64 characters, in index order, and changes no other state. -/
def Obligations.DigestEmitsHexString : Prop :=
  ∀ s : State, s.phase = .done →
    ∃ e : List OutEvent, exec .digest s = .next { s with out := s.out ++ e, cp := s.cp + 1 } ∧ e.length = 64 ∧
      ∀ p (h : p < 64), e[p]? =
        some (.hex (hexChar (BitVec.ofNat 4 (s.v[p / 8].toNat / 2 ^ (28 - 4 * (p % 8)) % 16))))

/-- R162: the characters, and that no other byte occurs. -/
def Obligations.DigestCharactersAreLowercaseHex : Prop :=
  (∀ n : Nibble, (n.toNat ≤ 9 → (hexChar n).toNat = 0x30 + n.toNat) ∧
    (10 ≤ n.toNat → (hexChar n).toNat = 0x61 + (n.toNat - 10))) ∧
  ∀ (v : Words8) (c : Byte), c ∈ hexStr v →
    (0x30 ≤ c.toNat ∧ c.toNat ≤ 0x39) ∨ (0x61 ≤ c.toNat ∧ c.toNat ≤ 0x66)

/-- R161: 64 characters, each the digit of its nibble, and distinct States give distinct strings. -/
def Obligations.HexStringSpellsState : Prop :=
  (∀ v : Words8, (hexStr v).length = 64 ∧
    ∀ p (h : p < 64), ∃ n : Nibble, n.toNat = v[p / 8].toNat / 2 ^ (28 - 4 * (p % 8)) % 2 ^ 4 ∧
      (hexStr v)[p]? = some (hexChar n)) ∧
  ∀ v u : Words8, hexStr v = hexStr u → v = u

/-- R170: RDV in every phase. -/
def Obligations.ReadbackOfStateWord : Prop :=
  ∀ (s : State) (i : Fin 8), exec (.rdv i) s = .next { s with out := s.out ++ [.resp s.v[i]], cp := s.cp + 1 }

/-- R171: RDLEN in every phase; the response is half `sel` of the counter as a number. -/
def Obligations.ReadbackOfLength : Prop :=
  ∀ (s : State) (x : Fin 2), ∃ r : Word,
    exec (.rdlen x) s = .next { s with out := s.out ++ [.resp r], cp := s.cp + 1 } ∧
    r.toNat = s.len.toNat / 2 ^ (32 * x.val) % 2 ^ 32

/-- R31, R172: RDST in every phase; the response as a number, FILL in bits 9:4, CAUSE in 3:2, PHASE in 1:0, zeros above. -/
def Obligations.ReadbackOfStatus : Prop :=
  ∀ s : State, ∃ r : Word,
    exec .rdst s = .next { s with out := s.out ++ [.resp r], cp := s.cp + 1 } ∧
    r.toNat =
      (match s.phase with | .idle => 0 | .absorb => 1 | .done => 2 | .fault => 3) +
      4 * (match s.cause with | .noFault => 0 | .invalidInput => 1 | .inputTooLarge => 2 | .illegalCommand => 3) +
      16 * s.fill.toNat

/-! ### Whole machine -/

/-- R15, R27: every command word, legal, faulting or discarded, advances `cp` by exactly 1. -/
def Obligations.EveryCommandAdvancesPointer : Prop :=
  ∀ (w : CmdWord) (s t : State), runWord w s = .next t → t.cp = s.cp + 1

/-- R35: no step writes the parameters. -/
def Obligations.StepKeepsParameters : Prop :=
  ∀ s t : State, step s = .next t → t.cfg = s.cfg

/-- R37, R160, R170 to R172: the history only grows, and what a command adds to it: 64 characters for DIGEST in DONE, one
response for a read-back, nothing for any other word. -/
def Obligations.OutputHistoryOnlyGrows : Prop :=
  (∀ s t : State, step s = .next t → ∃ e, t.out = s.out ++ e) ∧
  ∀ (w : CmdWord) (s t : State), runWord w s = .next t → t.out ≠ s.out →
    (decode w = .command .digest ∧ s.phase = .done ∧ t.out.length = s.out.length + 64) ∨
    (((∃ i, decode w = .command (.rdv i)) ∨ (∃ x, decode w = .command (.rdlen x)) ∨ decode w = .command .rdst) ∧
      ∃ r, t.out = s.out ++ [.resp r])

/-- R32: hidden state is unobservable: from two states that differ only in the transient store and in bytes of BUF at and
above FILL, a step gives two states that differ only there. -/
def Obligations.HiddenStateIsUnobservable : Prop :=
  ∀ s s' t : State, HiddenOnly s s' → step s = .next t → ∃ t', step s' = .next t' ∧ HiddenOnly t t'

/-- R200, R37, R27: a reset between commands. (BUF and the transient store become unspecified, logs 6, 7.) -/
def Obligations.ResetBetweenCommands : Prop :=
  ∀ (s : State) (rest : List HostEvent), s.port = .reset :: rest →
    step s = .next { s with port := rest, v := s.cfg.iv, len := 0, fill := 0, phase := .idle, cause := .noFault, buf := [],
                            transient := .unspecified }

/-- R214: a reset inside a command leaves the reset state, with some prefix of what the command would have output. (How
long a prefix is a free value, log 8; that `cp` counts the command is the model's choice, log 2.) -/
def Obligations.ResetDuringCommand : Prop :=
  ∀ (s u : State) (w : CmdWord) (rest : List HostEvent) (e : List OutEvent), s.port = .commandCutByReset w :: rest →
    runWord w { s with port := rest } = .next u → u.out = s.out ++ e →
    ∃ n, step s = .next { s with port := rest, v := s.cfg.iv, len := 0, fill := 0, phase := .idle, cause := .noFault,
                                 buf := [], transient := .unspecified, out := s.out ++ e.take n, cp := s.cp + 1,
                                 freeCount := s.freeCount + 1 }

/-- R33: the state after reset; INIT too writes `V` from `IV`; and RDV after reset answers a defined value. -/
def Obligations.ResetValues : Prop :=
  (∀ i : Fin 8, State.reset.v[i] = State.reset.cfg.iv[i]) ∧ State.reset.len = 0 ∧ State.reset.fill = 0 ∧
  State.reset.phase = .idle ∧ State.reset.cause = .noFault ∧ status State.reset = 0x00000000#32 ∧
  (∀ s : State, ∃ t, exec .init s = .next t ∧ t.v = s.cfg.iv) ∧
  ∀ i : Fin 8, ∃ t, exec (.rdv i) State.reset = .next t ∧ t.out = [.resp State.reset.cfg.iv[i]]

/-! ### Invariants -/

/-- R36: the invariant holds after reset. (That BUF lists nothing and that the transient store has no content is R34 as
logs 6 and 7 model it.) -/
def Obligations.InvHoldsAtReset : Prop := Inv State.reset

/-- R36, R24: every step keeps the invariant. -/
def Obligations.InvKeptByEveryStep : Prop :=
  ∀ s t : State, Inv s → step s = .next t → Inv t

/-- R24, R32, R212: from a state that meets the invariant every step completes: no command reads a cell without value. -/
def Obligations.NoStepStopsUnderInv : Prop :=
  ∀ s : State, Inv s → StepCompletes s

/-- The block buffer keeps its canonical form in every step, from every state (log 6; 20_memory.md R40 for the bound). -/
def Obligations.BufferKeepsCanonicalForm : Prop :=
  ∀ s t : State, s.buf.wf = true → step s = .next t → t.buf.wf = true

/-- R36: the invariant with the message holds after reset. -/
def Obligations.TracedHoldsAtReset : Prop := Traced State.reset

/-- R36 (c), (e), (f), (g): every step keeps the invariant with the message. -/
def Obligations.TracedKeptByEveryStep : Prop :=
  ∀ s t : State, Traced s → step s = .next t → Traced t

/-- R36 (c), R114: a PUSH in ABSORB within the limit extends the message by its byte. -/
def Obligations.PushExtendsMessage : Prop :=
  ∀ (s : State) (m : List Byte) (b : Byte), s.phase = .absorb → Absorbed m s → m.length < maxBytes s.cfg →
    ∃ t, exec (.push b) s = .next t ∧ t.phase = .absorb ∧ t.cause = s.cause ∧ Absorbed (m ++ [b]) t

/-- R116, R120: FINAL in ABSORB leaves the final State of the message, the one of the whole padded sequence. -/
def Obligations.FinalFinishesMessage : Prop :=
  ∀ (s : State) (m : List Byte), s.phase = .absorb → Absorbed m s →
    ∃ t, exec .final s = .next t ∧ t.phase = .done ∧ t.cause = s.cause ∧ Finished m t

/-- R19: from any state, the commands INIT, PUSH of each byte of a message of at most MAXBYTES bytes, FINAL, DIGEST raise
no fault and append exactly the characters of its hash to the history. -/
def Obligations.HashEndToEnd : Prop :=
  ∀ (s : State) (m : List Byte) (rest : List HostEvent), m.length ≤ maxBytes s.cfg →
    s.port = (hashCommands m).map (fun i => .command (encode i)) ++ rest →
    (∀ k, 0 < k → k ≤ m.length + 3 → ∃ u, RunsTo k s u ∧ u.phase ≠ .fault) ∧
    ∃ t d, RunsTo (m.length + 3) s t ∧ hashBytes s.cfg m = .ok d ∧ t.out = s.out ++ d.map .hex ∧ t.port = rest ∧
      t.phase = .done

/-! ### The reference function and the host side -/

/-- R117, R118, R119, R121: the padded sequence: the message, 0x80, the fewest zero bytes, and the bit length in eight
bytes, a whole number of blocks. -/
def Obligations.PaddingFillsWholeBlocks : Prop :=
  ∀ m : List Byte, m.length < 2 ^ 61 →
    (pad m).length = 64 * ((m.length + 8) / 64 + 1) ∧
    (∀ j, (m.length + 1 + j + 8) % 64 = 0 → zeroCount m.length ≤ j) ∧
    (pad m).take m.length = m ∧ (pad m)[m.length]? = some 0x80#8 ∧
    (∀ a, m.length < a → a + 8 < (pad m).length → (pad m)[a]? = some 0#8) ∧
    ∃ f : List Byte, (pad m).drop ((pad m).length - 8) = f ∧ f.foldl (fun n b => 256 * n + b.toNat) 0 = 8 * m.length

/-- R101 to R105: a code point is encodable if and only if it is a scalar value; the number of bytes by range; and the
bytes carry the point (the leading byte's marker and 0x80 taken off, six bits each). -/
def Obligations.Utf8FormsCarryThePoint : Prop :=
  ∀ c : Nat,
    ((∃ l, encodePoint c = .ok l) ↔ c < 0xD800 ∨ (0xDFFF < c ∧ c ≤ 0x10FFFF)) ∧
    ∀ l, encodePoint c = .ok l →
      (c < 0x80 → ∃ b0, l = [b0] ∧ b0.toNat = c) ∧
      (0x80 ≤ c → c ≤ 0x7FF → ∃ b0 b1, l = [b0, b1] ∧ (b0.toNat - 0xC0) * 2 ^ 6 + (b1.toNat - 0x80) = c ∧
        b0.toNat / 2 ^ 5 = 0x6 ∧ b1.toNat / 2 ^ 6 = 0x2) ∧
      (0x800 ≤ c → c ≤ 0xFFFF → ∃ b0 b1 b2, l = [b0, b1, b2] ∧
        (b0.toNat - 0xE0) * 2 ^ 12 + (b1.toNat - 0x80) * 2 ^ 6 + (b2.toNat - 0x80) = c ∧
        b0.toNat / 2 ^ 4 = 0xE ∧ b1.toNat / 2 ^ 6 = 0x2 ∧ b2.toNat / 2 ^ 6 = 0x2) ∧
      (0x10000 ≤ c → ∃ b0 b1 b2 b3, l = [b0, b1, b2, b3] ∧
        (b0.toNat - 0xF0) * 2 ^ 18 + (b1.toNat - 0x80) * 2 ^ 12 + (b2.toNat - 0x80) * 2 ^ 6 + (b3.toNat - 0x80) = c ∧
        b0.toNat / 2 ^ 3 = 0x1E ∧ b1.toNat / 2 ^ 6 = 0x2 ∧ b2.toNat / 2 ^ 6 = 0x2 ∧ b3.toNat / 2 ^ 6 = 0x2)

/-- R68, R69: a well-formed source line of a command has that command's word, and HASH of a text is the command sequence of
R19 for its bytes. -/
def Obligations.AssembledLinesDecode : Prop :=
  (∀ b, (SourceLine.push b).wellFormed = true →
    (SourceLine.push b).words.map decode = [.command (.push (BitVec.ofNat 8 b))]) ∧
  (∀ i (h : i < 8), (SourceLine.rdv i).words.map decode = [.command (.rdv ⟨i, h⟩)]) ∧
  (∀ x (h : x < 2), (SourceLine.rdlen x).words.map decode = [.command (.rdlen ⟨x, h⟩)]) ∧
  (∀ n b, (SourceLine.pushn n b).words = (List.replicate n (SourceLine.push b).words).flatten) ∧
  SourceLine.rdvall.words = ((List.range 8).map fun i => (SourceLine.rdv i).words).flatten ∧
  ∀ text, (SourceLine.hash text).wellFormed = true →
    (SourceLine.hash text).words = (hashCommands (text.map fun c => BitVec.ofNat 8 c.toNat)).map encode
end

