-- ==== Sys2Proof/Laws/State.lean ====
section
/-!
SUPPORT. What each named update of State does to each field, one equation per field, so that no later proof unfolds a
record update.
-/

namespace Sys2Proof.Machine

@[simp] theorem dropBuffer_cfg (s : State) : (dropBuffer s).cfg = s.cfg := rfl
@[simp] theorem dropBuffer_v (s : State) : (dropBuffer s).v = s.v := rfl
@[simp] theorem dropBuffer_len (s : State) : (dropBuffer s).len = s.len := rfl
@[simp] theorem dropBuffer_fill (s : State) : (dropBuffer s).fill = s.fill := rfl
@[simp] theorem dropBuffer_phase (s : State) : (dropBuffer s).phase = s.phase := rfl
@[simp] theorem dropBuffer_cause (s : State) : (dropBuffer s).cause = s.cause := rfl
@[simp] theorem dropBuffer_buf (s : State) : (dropBuffer s).buf = [] := rfl
@[simp] theorem dropBuffer_transient (s : State) : (dropBuffer s).transient = s.transient := rfl
@[simp] theorem dropBuffer_port (s : State) : (dropBuffer s).port = s.port := rfl
@[simp] theorem dropBuffer_cp (s : State) : (dropBuffer s).cp = s.cp := rfl
@[simp] theorem dropBuffer_out (s : State) : (dropBuffer s).out = s.out := rfl
@[simp] theorem dropBuffer_freeCount (s : State) : (dropBuffer s).freeCount = s.freeCount := rfl

@[simp] theorem dropTransient_cfg (s : State) : (dropTransient s).cfg = s.cfg := rfl
@[simp] theorem dropTransient_v (s : State) : (dropTransient s).v = s.v := rfl
@[simp] theorem dropTransient_len (s : State) : (dropTransient s).len = s.len := rfl
@[simp] theorem dropTransient_fill (s : State) : (dropTransient s).fill = s.fill := rfl
@[simp] theorem dropTransient_phase (s : State) : (dropTransient s).phase = s.phase := rfl
@[simp] theorem dropTransient_cause (s : State) : (dropTransient s).cause = s.cause := rfl
@[simp] theorem dropTransient_buf (s : State) : (dropTransient s).buf = s.buf := rfl
@[simp] theorem dropTransient_transient (s : State) : (dropTransient s).transient = .unspecified := rfl
@[simp] theorem dropTransient_port (s : State) : (dropTransient s).port = s.port := rfl
@[simp] theorem dropTransient_cp (s : State) : (dropTransient s).cp = s.cp := rfl
@[simp] theorem dropTransient_out (s : State) : (dropTransient s).out = s.out := rfl
@[simp] theorem dropTransient_freeCount (s : State) : (dropTransient s).freeCount = s.freeCount := rfl

@[simp] theorem writeLen_cfg (s : State) (x : BitVec 64) : (writeLen s x).cfg = s.cfg := rfl
@[simp] theorem writeLen_v (s : State) (x : BitVec 64) : (writeLen s x).v = s.v := rfl
@[simp] theorem writeLen_len (s : State) (x : BitVec 64) : (writeLen s x).len = x &&& lenMask s.cfg := rfl
@[simp] theorem writeLen_fill (s : State) (x : BitVec 64) : (writeLen s x).fill = s.fill := rfl
@[simp] theorem writeLen_phase (s : State) (x : BitVec 64) : (writeLen s x).phase = s.phase := rfl
@[simp] theorem writeLen_cause (s : State) (x : BitVec 64) : (writeLen s x).cause = s.cause := rfl
@[simp] theorem writeLen_buf (s : State) (x : BitVec 64) : (writeLen s x).buf = s.buf := rfl
@[simp] theorem writeLen_transient (s : State) (x : BitVec 64) : (writeLen s x).transient = s.transient := rfl
@[simp] theorem writeLen_port (s : State) (x : BitVec 64) : (writeLen s x).port = s.port := rfl
@[simp] theorem writeLen_cp (s : State) (x : BitVec 64) : (writeLen s x).cp = s.cp := rfl
@[simp] theorem writeLen_out (s : State) (x : BitVec 64) : (writeLen s x).out = s.out := rfl
@[simp] theorem writeLen_freeCount (s : State) (x : BitVec 64) : (writeLen s x).freeCount = s.freeCount := rfl

@[simp] theorem advance_cfg (s : State) : (advance s).cfg = s.cfg := rfl
@[simp] theorem advance_v (s : State) : (advance s).v = s.v := rfl
@[simp] theorem advance_len (s : State) : (advance s).len = s.len := rfl
@[simp] theorem advance_fill (s : State) : (advance s).fill = s.fill := rfl
@[simp] theorem advance_phase (s : State) : (advance s).phase = s.phase := rfl
@[simp] theorem advance_cause (s : State) : (advance s).cause = s.cause := rfl
@[simp] theorem advance_buf (s : State) : (advance s).buf = s.buf := rfl
@[simp] theorem advance_transient (s : State) : (advance s).transient = s.transient := rfl
@[simp] theorem advance_port (s : State) : (advance s).port = s.port := rfl
@[simp] theorem advance_cp (s : State) : (advance s).cp = s.cp + 1 := rfl
@[simp] theorem advance_out (s : State) : (advance s).out = s.out := rfl
@[simp] theorem advance_freeCount (s : State) : (advance s).freeCount = s.freeCount := rfl

@[simp] theorem discardCommand_cfg (s : State) : (discardCommand s).cfg = s.cfg := rfl
@[simp] theorem discardCommand_v (s : State) : (discardCommand s).v = s.v := rfl
@[simp] theorem discardCommand_len (s : State) : (discardCommand s).len = s.len := rfl
@[simp] theorem discardCommand_fill (s : State) : (discardCommand s).fill = s.fill := rfl
@[simp] theorem discardCommand_phase (s : State) : (discardCommand s).phase = s.phase := rfl
@[simp] theorem discardCommand_cause (s : State) : (discardCommand s).cause = s.cause := rfl
@[simp] theorem discardCommand_buf (s : State) : (discardCommand s).buf = s.buf := rfl
@[simp] theorem discardCommand_transient (s : State) : (discardCommand s).transient = s.transient := rfl
@[simp] theorem discardCommand_port (s : State) : (discardCommand s).port = s.port := rfl
@[simp] theorem discardCommand_cp (s : State) : (discardCommand s).cp = s.cp + 1 := rfl
@[simp] theorem discardCommand_out (s : State) : (discardCommand s).out = s.out := rfl
@[simp] theorem discardCommand_freeCount (s : State) : (discardCommand s).freeCount = s.freeCount := rfl

@[simp] theorem emitResp_cfg (s : State) (w : Word) : (emitResp s w).cfg = s.cfg := rfl
@[simp] theorem emitResp_v (s : State) (w : Word) : (emitResp s w).v = s.v := rfl
@[simp] theorem emitResp_len (s : State) (w : Word) : (emitResp s w).len = s.len := rfl
@[simp] theorem emitResp_fill (s : State) (w : Word) : (emitResp s w).fill = s.fill := rfl
@[simp] theorem emitResp_phase (s : State) (w : Word) : (emitResp s w).phase = s.phase := rfl
@[simp] theorem emitResp_cause (s : State) (w : Word) : (emitResp s w).cause = s.cause := rfl
@[simp] theorem emitResp_buf (s : State) (w : Word) : (emitResp s w).buf = s.buf := rfl
@[simp] theorem emitResp_transient (s : State) (w : Word) : (emitResp s w).transient = s.transient := rfl
@[simp] theorem emitResp_port (s : State) (w : Word) : (emitResp s w).port = s.port := rfl
@[simp] theorem emitResp_cp (s : State) (w : Word) : (emitResp s w).cp = s.cp := rfl
@[simp] theorem emitResp_out (s : State) (w : Word) : (emitResp s w).out = s.out ++ [.resp w] := rfl
@[simp] theorem emitResp_freeCount (s : State) (w : Word) : (emitResp s w).freeCount = s.freeCount := rfl

@[simp] theorem emitHex_cfg (s : State) (c : Byte) : (emitHex s c).cfg = s.cfg := rfl
@[simp] theorem emitHex_v (s : State) (c : Byte) : (emitHex s c).v = s.v := rfl
@[simp] theorem emitHex_len (s : State) (c : Byte) : (emitHex s c).len = s.len := rfl
@[simp] theorem emitHex_fill (s : State) (c : Byte) : (emitHex s c).fill = s.fill := rfl
@[simp] theorem emitHex_phase (s : State) (c : Byte) : (emitHex s c).phase = s.phase := rfl
@[simp] theorem emitHex_cause (s : State) (c : Byte) : (emitHex s c).cause = s.cause := rfl
@[simp] theorem emitHex_buf (s : State) (c : Byte) : (emitHex s c).buf = s.buf := rfl
@[simp] theorem emitHex_transient (s : State) (c : Byte) : (emitHex s c).transient = s.transient := rfl
@[simp] theorem emitHex_port (s : State) (c : Byte) : (emitHex s c).port = s.port := rfl
@[simp] theorem emitHex_cp (s : State) (c : Byte) : (emitHex s c).cp = s.cp := rfl
@[simp] theorem emitHex_out (s : State) (c : Byte) : (emitHex s c).out = s.out ++ [.hex c] := rfl
@[simp] theorem emitHex_freeCount (s : State) (c : Byte) : (emitHex s c).freeCount = s.freeCount := rfl

@[simp] theorem raise_cfg (c : Cause) (s : State) : (raise c s).cfg = s.cfg := rfl
@[simp] theorem raise_v (c : Cause) (s : State) : (raise c s).v = s.v := rfl
@[simp] theorem raise_len (c : Cause) (s : State) : (raise c s).len = s.len := rfl
@[simp] theorem raise_fill (c : Cause) (s : State) : (raise c s).fill = s.fill := rfl
@[simp] theorem raise_phase (c : Cause) (s : State) : (raise c s).phase = .fault := rfl
@[simp] theorem raise_cause (c : Cause) (s : State) : (raise c s).cause = c := rfl
@[simp] theorem raise_buf (c : Cause) (s : State) : (raise c s).buf = s.buf := rfl
@[simp] theorem raise_transient (c : Cause) (s : State) : (raise c s).transient = s.transient := rfl
@[simp] theorem raise_port (c : Cause) (s : State) : (raise c s).port = s.port := rfl
@[simp] theorem raise_cp (c : Cause) (s : State) : (raise c s).cp = s.cp + 1 := rfl
@[simp] theorem raise_out (c : Cause) (s : State) : (raise c s).out = s.out := rfl
@[simp] theorem raise_freeCount (c : Cause) (s : State) : (raise c s).freeCount = s.freeCount := rfl

@[simp] theorem initBody_cfg (s : State) : (initBody s).cfg = s.cfg := rfl
@[simp] theorem initBody_v (s : State) : (initBody s).v = s.cfg.iv := rfl
@[simp] theorem initBody_len (s : State) : (initBody s).len = 0 := rfl
@[simp] theorem initBody_fill (s : State) : (initBody s).fill = 0 := rfl
@[simp] theorem initBody_phase (s : State) : (initBody s).phase = .absorb := rfl
@[simp] theorem initBody_cause (s : State) : (initBody s).cause = .noFault := rfl
@[simp] theorem initBody_buf (s : State) : (initBody s).buf = [] := rfl
@[simp] theorem initBody_transient (s : State) : (initBody s).transient = .unspecified := rfl
@[simp] theorem initBody_port (s : State) : (initBody s).port = s.port := rfl
@[simp] theorem initBody_cp (s : State) : (initBody s).cp = s.cp := rfl
@[simp] theorem initBody_out (s : State) : (initBody s).out = s.out := rfl
@[simp] theorem initBody_freeCount (s : State) : (initBody s).freeCount = s.freeCount := rfl

@[simp] theorem resetEngine_cfg (s : State) : (resetEngine s).cfg = s.cfg := rfl
@[simp] theorem resetEngine_v (s : State) : (resetEngine s).v = s.cfg.iv := rfl
@[simp] theorem resetEngine_len (s : State) : (resetEngine s).len = 0 := rfl
@[simp] theorem resetEngine_fill (s : State) : (resetEngine s).fill = 0 := rfl
@[simp] theorem resetEngine_phase (s : State) : (resetEngine s).phase = .idle := rfl
@[simp] theorem resetEngine_cause (s : State) : (resetEngine s).cause = .noFault := rfl
@[simp] theorem resetEngine_buf (s : State) : (resetEngine s).buf = [] := rfl
@[simp] theorem resetEngine_transient (s : State) : (resetEngine s).transient = .unspecified := rfl
@[simp] theorem resetEngine_port (s : State) : (resetEngine s).port = s.port := rfl
@[simp] theorem resetEngine_cp (s : State) : (resetEngine s).cp = s.cp := rfl
@[simp] theorem resetEngine_out (s : State) : (resetEngine s).out = s.out := rfl
@[simp] theorem resetEngine_freeCount (s : State) : (resetEngine s).freeCount = s.freeCount := rfl

end Sys2Proof.Machine
end

