-- ==== Sys2Proof/Laws/Memory.lean ====
section
/-!
SUPPORT. The laws of the block buffer: read after write, the canonical form, and what each access can do.
-/

namespace Sys2Proof.Machine

@[simp] theorem Memory.read_nil (a : Nat) : Memory.read [] a = none := rfl

theorem Memory.read_write (m : Memory) (a : Nat) (b : Byte) (x : Nat) :
    (m.write a b).read x = if x = a then some b else m.read x := by
  induction m with
  | nil => simp [Memory.write, Memory.read]
  | cons cell rest ih =>
    obtain ⟨k, c⟩ := cell
    simp only [Memory.write]
    split
    · simp [Memory.read]
    · split
      · rename_i h; subst h; simp only [Memory.read]; split <;> rfl
      · simp only [Memory.read, ih]; split <;> split <;> first | rfl | omega

@[simp] theorem Memory.read_write_same (m : Memory) (a : Nat) (b : Byte) :
    (m.write a b).read a = some b := by simp [Memory.read_write]

theorem Memory.read_write_other {m : Memory} {a x : Nat} (b : Byte) (h : x ≠ a) :
    (m.write a b).read x = m.read x := by simp [Memory.read_write, h]

theorem Memory.wfFrom_write {m : Memory} {lo a : Nat} (b : Byte) (h : Memory.wfFrom lo m = true) (hlo : lo ≤ a)
    (ha : a < 64) : Memory.wfFrom lo (Memory.write m a b) = true := by
  induction m generalizing lo with
  | nil => simp [Memory.write, Memory.wfFrom, hlo, ha]
  | cons cell rest ih =>
    obtain ⟨k, c⟩ := cell
    simp only [Memory.wfFrom, Bool.and_eq_true, decide_eq_true_eq] at h
    obtain ⟨⟨h1, h2⟩, h3⟩ := h
    simp only [Memory.write]
    split
    · simp only [Memory.wfFrom, Bool.and_eq_true, decide_eq_true_eq]
      exact ⟨⟨hlo, ha⟩, ⟨by omega, h2⟩, h3⟩
    · split
      · rename_i hk; subst hk
        simp only [Memory.wfFrom, Bool.and_eq_true, decide_eq_true_eq]
        exact ⟨⟨hlo, ha⟩, h3⟩
      · simp only [Memory.wfFrom, Bool.and_eq_true, decide_eq_true_eq]
        exact ⟨⟨h1, h2⟩, ih h3 (by omega)⟩

/-- A write below address 64 keeps the canonical form. -/
theorem Memory.wf_write {m : Memory} {a : Nat} (b : Byte) (h : m.wf = true) (ha : a < 64) :
    (m.write a b).wf = true := Memory.wfFrom_write b h (Nat.zero_le a) ha

theorem Memory.wf_nil : Memory.wf [] = true := rfl

theorem Memory.read_below {m : Memory} {lo a : Nat} (h : Memory.wfFrom lo m = true) (ha : a < lo) :
    Memory.read m a = none := by
  induction m generalizing lo with
  | nil => rfl
  | cons cell rest ih =>
    obtain ⟨k, c⟩ := cell
    simp only [Memory.wfFrom, Bool.and_eq_true, decide_eq_true_eq] at h
    obtain ⟨⟨h1, h2⟩, h3⟩ := h
    simp only [Memory.read, if_neg (show a ≠ k by omega)]
    exact ih h3 (by omega)

/-- In canonical form equal reads are equal memories. -/
theorem Memory.ext_from {m n : Memory} {lo : Nat} (hm : Memory.wfFrom lo m = true) (hn : Memory.wfFrom lo n = true)
    (h : ∀ a, Memory.read m a = Memory.read n a) : m = n := by
  induction m generalizing n lo with
  | nil =>
    cases n with
    | nil => rfl
    | cons cell rest => obtain ⟨k, c⟩ := cell; have := h k; simp [Memory.read] at this
  | cons cell rest ih =>
    obtain ⟨k, c⟩ := cell
    cases n with
    | nil => have := h k; simp [Memory.read] at this
    | cons cell' rest' =>
      obtain ⟨k', c'⟩ := cell'
      simp only [Memory.wfFrom, Bool.and_eq_true, decide_eq_true_eq] at hm hn
      have hk : k = k' := by
        rcases Nat.lt_trichotomy k k' with hlt | heq | hgt
        · have := h k
          simp [Memory.read, Nat.ne_of_lt hlt, Memory.read_below hn.2 (show k < k' + 1 by omega)] at this
        · exact heq
        · have := h k'
          simp [Memory.read, Nat.ne_of_lt hgt, Memory.read_below hm.2 (show k' < k + 1 by omega)] at this
      subst hk
      have hc : c = c' := by have := h k; simpa [Memory.read] using this
      subst hc
      have : rest = rest' := ih hm.2 hn.2 fun a => by
        by_cases ha : a = k
        · subst ha
          rw [Memory.read_below hm.2 (by omega), Memory.read_below hn.2 (by omega)]
        · have := h a
          simpa [Memory.read, ha] using this
      rw [this]

theorem Memory.ext {m n : Memory} (hm : m.wf = true) (hn : n.wf = true) (h : ∀ a, m.read a = n.read a) : m = n :=
  Memory.ext_from hm hn h

/-! ### Accesses -/

theorem readByte_of_value {s : State} {a : Nat} {b : Byte} (ha : a < 64) (h : s.buf.read a = some b) :
    readByte s a = .ok b := by simp [readByte, ha, h]

theorem readByte_of_none {s : State} {a : Nat} (ha : a < 64) (h : s.buf.read a = none) :
    readByte s a = .error (.valuelessByte a) := by simp [readByte, ha, h]

theorem storeByte_of_lt {s : State} {a : Nat} (b : Byte) (ha : a < 64) :
    storeByte s a b = .ok { s with buf := s.buf.write a b } := by simp [storeByte, ha]

/-- All a store can do: the address exists, and one byte is written. -/
theorem storeByte_ok {s t : State} {a : Nat} {b : Byte} (h : storeByte s a b = .ok t) :
    a < 64 ∧ t = { s with buf := s.buf.write a b } := by
  unfold storeByte at h
  split at h
  · rename_i ha; exact ⟨ha, by simpa using h.symm⟩
  · exact nomatch h

/-- All a word read can do when its four bytes have values: the big-endian word (20_memory.md R42). -/
theorem memRead_word {s : State} {a : Nat} {b0 b1 b2 b3 : Byte} (ha : a + 3 < 64) (h0 : s.buf.read a = some b0)
    (h1 : s.buf.read (a + 1) = some b1) (h2 : s.buf.read (a + 2) = some b2) (h3 : s.buf.read (a + 3) = some b3) :
    memRead s a 4 = .ok (b0 ++ b1 ++ b2 ++ b3 : BitVec 32) := by
  have e0 : readByte s (a + 0) = .ok b0 := readByte_of_value (by omega) h0
  have e1 : readByte s (a + 1) = .ok b1 := readByte_of_value (by omega) h1
  have e2 : readByte s (a + 2) = .ok b2 := readByte_of_value (by omega) h2
  have e3 : readByte s (a + 3) = .ok b3 := readByte_of_value (by omega) h3
  have hz : ((0#0 ++ b0 : BitVec (0 + 8)) : BitVec 8) = b0 := by
    apply BitVec.eq_of_toNat_eq
    exact (BitVec.toNat_append (0#0) b0).trans (by simp)
  simp only [memRead, e0, e1, e2, e3, bind, Except.bind]
  congr 1
  exact congrArg (fun x : BitVec 8 => (x ++ b1 ++ b2 ++ b3 : BitVec 32)) hz

/-- All that zeroing a range can do: every byte of it is 0 and nothing else of the state changes. -/
theorem storeZeros_spec (s : State) (lo : Nat) : ∀ count, lo + count ≤ 64 →
    ∃ m, storeZeros s lo count = .ok { s with buf := m } ∧
      (∀ x, m.read x = if lo ≤ x ∧ x < lo + count then some 0 else s.buf.read x) ∧
      (s.buf.wf = true → m.wf = true) := by
  intro count
  induction count with
  | zero =>
    intro _
    refine ⟨s.buf, rfl, fun x => ?_, id⟩
    rw [if_neg (by omega)]
  | succ n ih =>
    intro h
    obtain ⟨m, hm, hr, hwf⟩ := ih (by omega)
    refine ⟨m.write (lo + n) 0, ?_, fun x => ?_, fun w => Memory.wf_write 0 (hwf w) (by omega)⟩
    · simp [storeZeros, hm, bind, Except.bind, storeByte, show lo + n < 64 by omega]
    · rw [Memory.read_write, hr]
      by_cases hx : x = lo + n
      · simp [hx]
      · rw [if_neg hx]
        by_cases hc : lo ≤ x ∧ x < lo + n
        · rw [if_pos hc, if_pos (by omega)]
        · rw [if_neg hc, if_neg (by omega)]

/-- All that the first `k` byte writes of a MemWrite can do (00_scope.md R12). -/
theorem memWriteFirst_spec (s : State) (a n : Nat) (v : BitVec (8 * n)) : ∀ k, a + k ≤ 64 →
    ∃ m, memWriteFirst s a n v k = .ok { s with buf := m } ∧
      (∀ x, m.read x = if a ≤ x ∧ x < a + k then some (v.extractLsb' (8 * (n - 1 - (x - a))) 8) else s.buf.read x) ∧
      (s.buf.wf = true → m.wf = true) := by
  intro k
  induction k with
  | zero =>
    intro _
    refine ⟨s.buf, rfl, fun x => ?_, id⟩
    rw [if_neg (by omega)]
  | succ j ih =>
    intro h
    obtain ⟨m, hm, hr, hwf⟩ := ih (by omega)
    refine ⟨m.write (a + j) (v.extractLsb' (8 * (n - 1 - j)) 8), ?_, fun x => ?_,
      fun w => Memory.wf_write _ (hwf w) (by omega)⟩
    · simp [memWriteFirst, hm, bind, Except.bind, storeByte, show a + j < 64 by omega]
    · rw [Memory.read_write, hr]
      by_cases hx : x = a + j
      · subst hx; simp
      · rw [if_neg hx]
        by_cases hc : a ≤ x ∧ x < a + j
        · rw [if_pos hc, if_pos (by omega)]
        · rw [if_neg hc, if_neg (by omega)]

end Sys2Proof.Machine
end

