-- ==== Sys2Proof/Laws/Block.lean ====
section
/-!
SUPPORT. The laws of the micro-operations of BLOCK: what each does when the one before it has run, and the words of
a schedule by index. A proof about BLOCK chains these and unfolds none of them.
-/

namespace Sys2Proof.Machine

theorem loadWords_spec {s : State} {b : Block} (h : ∀ a (ha : a < 64), s.buf.read a = some b[a]) :
    ∀ n (hn : n ≤ 16), loadWords s n = .ok (Vector.ofFn fun i : Fin n => blockWord b ⟨i.val, by omega⟩) := by
  intro n
  induction n with
  | zero => intro _; simp [loadWords]
  | succ n ih =>
    intro hn
    have hw : memRead s (4 * n) 4 = .ok (blockWord b ⟨n, by omega⟩) :=
      memRead_word (by omega) (h _ (by omega)) (h _ (by omega)) (h _ (by omega)) (h _ (by omega))
    simp only [loadWords, ih (by omega), hw, bind, Except.bind]
    congr 1
    ext i hi
    simp only [Vector.getElem_push, Vector.getElem_ofFn]
    split
    · rfl
    · have : i = n := by omega
      subst this; rfl

/-- LOADW on a buffer whose 64 bytes have values (43_schedule.md R130). -/
theorem loadw_spec {s : State} {b : Block} (h : ∀ a (ha : a < 64), s.buf.read a = some b[a]) :
    loadw s = .ok { s with transient := .loaded (Vector.ofFn (blockWord b)) } := by
  simp only [loadw, loadWords_spec h 16 (Nat.le_refl 16), bind, Except.bind]

theorem expand_loaded (s : State) (w : Vector Word 16) :
    expand { s with transient := .loaded w } = .ok { s with transient := .expanded (expandAll w) } := rfl

theorem prime_expanded (s : State) (w : Vector Word 68) :
    prime { s with transient := .expanded w } = .ok { s with transient := .primed w (primeWords w) } := rfl

theorem cload_primed (s : State) (w : Vector Word 68) (wp : Vector Word 64) :
    cload { s with transient := .primed w wp } = .ok { s with transient := .working w wp (workOfV s.v) } := rfl

theorem roundStep_working (s : State) (w : Vector Word 68) (wp : Vector Word 64) (r : Work) (j : Fin 64) :
    roundStep j { s with transient := .working w wp r } =
      .ok { s with transient := .working w wp (roundWork j.val r w[j.val] wp[j.val]) } := rfl

/-- The first `n` rounds on the state are the first `n` rounds of R149 on the registers. -/
theorem rounds_working (s : State) (w : Vector Word 68) (wp : Vector Word 64) (r : Work) :
    ∀ n (hn : n ≤ 64), rounds n hn { s with transient := .working w wp r } =
      .ok { s with transient := .working w wp (roundsPure w wp n hn r) } := by
  intro n
  induction n with
  | zero => intro _; rfl
  | succ n ih =>
    intro hn
    simp only [rounds, ih (by omega), bind, Except.bind]
    exact roundStep_working s w wp _ ⟨n, hn⟩

theorem foldState_working (s : State) (w : Vector Word 68) (wp : Vector Word 64) (r : Work) :
    foldState { s with transient := .working w wp r } =
      .ok { s with v := foldWords s.v r, transient := .working w wp r } := rfl

/-- A word of the schedule once written is not written again. -/
theorem expandWords_succ_of_lt (w : Vector Word 16) (n i : Nat) (hi : i < n + 16) :
    (expandWords w (n + 1))[i] = (expandWords w n)[i] := by
  simp [expandWords, hi]

theorem expandWords_add (w : Vector Word 16) (n k i : Nat) (hi : i < n + 16) :
    (expandWords w (n + k))[i] = (expandWords w n)[i] := by
  induction k with
  | zero => rfl
  | succ k ih =>
    have e := expandWords_succ_of_lt w (n + k) i (by omega)
    exact e.trans ih

/-- The word that step `n` of EXPAND writes, in terms of the words before it. -/
theorem expandWords_last (w : Vector Word 16) (n : Nat) :
    (expandWords w (n + 1))[n + 16] = nextWord (expandWords w n) := by
  simp [expandWords]

/-- The first `n + 16` words of the whole schedule are those that the first `n` steps of EXPAND leave. -/
theorem expandAll_get (w : Vector Word 16) (n i : Nat) (hn : n ≤ 52) (hi : i < n + 16) :
    (expandAll w)[i] = (expandWords w n)[i] := by
  have h := expandWords_add w n (52 - n) i hi
  have e : ∀ m (_ : m = 52), (expandWords w m)[i]? = (expandAll w)[i]? := by rintro m rfl; rfl
  have e' := e (n + (52 - n)) (by omega)
  rw [Vector.getElem?_eq_getElem (by omega), Vector.getElem?_eq_getElem (by omega), Option.some_inj] at e'
  exact e'.symm.trans h

theorem primeWords_get (w : Vector Word 68) (j : Nat) (h : j < 64) :
    (primeWords w)[j] = w[j] ^^^ w[j + 4] := by simp [primeWords]

end Sys2Proof.Machine
end

