-- ==== Sys2Proof/Laws/Encoding.lean ====
section
/-!
SUPPORT. Small laws of the opcode map (spec 30_encoding.md R63): a row's bits lie within its mask, and what it means for
a row to match a word.
-/

namespace Sys2Proof

theorem Row.hits_iff (r : Row) (w : CmdWord) : r.hits w = true ↔ w &&& r.mask = r.bits := by simp [Row.hits]

/-- Every row fixes only bits that its mask covers. -/
theorem opcodeTable_bits_in_mask : opcodeTable.all (fun r => r.bits &&& r.mask == r.bits) = true := by decide

/-- The operand of a command fits the bits that its row leaves free. -/
theorem Instr.operand_lt (i : Instr) : i.operand < 256 := by
  cases i with
  | push b => exact b.isLt
  | rdv i => exact Nat.lt_trans i.isLt (by decide)
  | rdlen s => exact Nat.lt_trans s.isLt (by decide)
  | init => decide
  | final => decide
  | digest => decide
  | rdst => decide

/-- The word of a PUSH is 0x2000 plus its byte (R68). -/
theorem encode_push_toNat (b : Byte) : (encode (.push b)).toNat = 0x2000 + b.toNat := by
  have h : b.toNat < 256 := b.isLt
  show ((0x2000#16) + BitVec.ofNat 16 b.toNat).toNat = _
  rw [BitVec.toNat_add, BitVec.toNat_ofNat, BitVec.toNat_ofNat]
  omega

/-- Clearing the low `k` bits of a word leaves its quotient. -/
theorem toNat_clear_low (w : CmdWord) (k : Nat) :
    (w &&& (BitVec.allOnes 16 <<< k)).toNat = w.toNat / 2 ^ k * 2 ^ k := by
  have e : w &&& (BitVec.allOnes 16 <<< k) = (w >>> k) <<< k := by
    ext i hi
    simp only [BitVec.getElem_and, BitVec.getElem_shiftLeft, BitVec.getElem_allOnes]
    by_cases h : i < k
    · simp [h]
    · simp [h, Nat.add_sub_cancel' (Nat.le_of_not_lt h), BitVec.getLsbD_eq_getElem hi]
  have hw : w.toNat < 2 ^ 16 := w.isLt
  rw [e, BitVec.toNat_shiftLeft, BitVec.toNat_ushiftRight, Nat.shiftLeft_eq, Nat.shiftRight_eq_div_pow]
  exact Nat.mod_eq_of_lt (Nat.lt_of_le_of_lt (Nat.div_mul_le_self _ _) hw)

/-- A row whose mask leaves the low `k` bits free matches the words with its quotient. -/
theorem Row.hits_iff_div {r : Row} {k q : Nat} (hm : r.mask = BitVec.allOnes 16 <<< k)
    (hb : r.bits.toNat = q * 2 ^ k) (w : CmdWord) : r.hits w = true ↔ w.toNat / 2 ^ k = q := by
  rw [Row.hits_iff, ← BitVec.toNat_inj, hm, toNat_clear_low w k, hb]
  exact Nat.mul_left_inj (Nat.ne_of_gt (Nat.two_pow_pos k))

theorem rowInit_hits (w : CmdWord) : rowInit.hits w = true ↔ w.toNat = 0x1000 := by
  simpa using Row.hits_iff_div (r := rowInit) (k := 0) (q := 0x1000) (by decide) (by decide) w
theorem rowPush_hits (w : CmdWord) : rowPush.hits w = true ↔ w.toNat / 256 = 0x20 :=
  Row.hits_iff_div (r := rowPush) (k := 8) (q := 0x20) (by decide) (by decide) w
theorem rowFinal_hits (w : CmdWord) : rowFinal.hits w = true ↔ w.toNat = 0x3000 := by
  simpa using Row.hits_iff_div (r := rowFinal) (k := 0) (q := 0x3000) (by decide) (by decide) w
theorem rowDigest_hits (w : CmdWord) : rowDigest.hits w = true ↔ w.toNat = 0x4000 := by
  simpa using Row.hits_iff_div (r := rowDigest) (k := 0) (q := 0x4000) (by decide) (by decide) w
theorem rowRdv_hits (w : CmdWord) : rowRdv.hits w = true ↔ w.toNat / 8 = 0xA00 :=
  Row.hits_iff_div (r := rowRdv) (k := 3) (q := 0xA00) (by decide) (by decide) w
theorem rowRdlen_hits (w : CmdWord) : rowRdlen.hits w = true ↔ w.toNat / 2 = 0x3000 :=
  Row.hits_iff_div (r := rowRdlen) (k := 1) (q := 0x3000) (by decide) (by decide) w
theorem rowRdst_hits (w : CmdWord) : rowRdst.hits w = true ↔ w.toNat = 0x7000 := by
  simpa using Row.hits_iff_div (r := rowRdst) (k := 0) (q := 0x7000) (by decide) (by decide) w

end Sys2Proof
end

