-- ==== Sys2Proof/Laws/Machine.lean ====
section
/-!
SUPPORT. What each shared operation of the machine can do, said once: admission, emission, BLOCK, APPEND, PADFIN, and the
step's cases.
-/

namespace Sys2Proof.Machine

@[simp] theorem settle_ok (t : State) : settle (.ok t) = .next t := rfl

/-- A settled computation answers a next state only if it went through. -/
theorem settle_next {x : Except Fault State} {t : State} (h : settle x = .next t) : x = .ok t := by
  cases x with
  | ok u => injection h with h; rw [h]
  | error f => exact nomatch h

/-- All that a command can do after the phase check (30_encoding.md R71). -/
theorem whenAdmitted_next {i : Instr} {s t : State} {body : Except Fault State}
    (h : whenAdmitted i s body = .next t) :
    (admission i s.phase = .execute ∧ body = .ok t) ∨
    (admission i s.phase = .invalidInput ∧ t = raise .invalidInput s) ∨
    (admission i s.phase = .discard ∧ t = discardCommand s) := by
  unfold whenAdmitted at h
  split at h
  · exact .inl ⟨‹_›, settle_next h⟩
  · injection h with h; exact .inr (.inl ⟨‹_›, h.symm⟩)
  · injection h with h; exact .inr (.inr ⟨‹_›, h.symm⟩)

theorem whenAdmitted_execute {i : Instr} {s : State} (body : Except Fault State)
    (h : admission i s.phase = .execute) : whenAdmitted i s body = settle body := by simp [whenAdmitted, h]

theorem whenAdmitted_invalid {i : Instr} {s : State} (body : Except Fault State)
    (h : admission i s.phase = .invalidInput) : whenAdmitted i s body = .next (raise .invalidInput s) := by
  simp [whenAdmitted, h]

theorem whenAdmitted_discard {i : Instr} {s : State} (body : Except Fault State)
    (h : admission i s.phase = .discard) : whenAdmitted i s body = .next (discardCommand s) := by simp [whenAdmitted, h]

/-- Emitting characters one by one appends them in order (45_serializer.md R160; 20_memory.md R51). -/
theorem foldl_emitHex (l : List Byte) (s : State) :
    l.foldl emitHex s = { s with out := s.out ++ l.map .hex } := by
  induction l generalizing s with
  | nil => simp
  | cons c rest ih => simp [ih, emitHex]

/-- A computation in sequence goes through only if each part does. -/
theorem bind_ok {α β : Type} {x : Except Fault α} {f : α → Except Fault β} {r : β} (h : (x >>= f) = .ok r) :
    ∃ a, x = .ok a ∧ f a = .ok r := by
  cases x with
  | ok a => exact ⟨a, rfl, h⟩
  | error e => exact nomatch h

theorem rounds_ok {n : Nat} {hn : n ≤ 64} {s t : State} (h : rounds n hn s = .ok t) :
    ∃ x, t = { s with transient := x } := by
  induction n generalizing t with
  | zero => exact ⟨s.transient, by injection h with h; exact h.symm⟩
  | succ n ih =>
    obtain ⟨u, hu, hr⟩ := bind_ok h
    obtain ⟨x, rfl⟩ := ih hu
    unfold roundStep at hr
    split at hr
    · injection hr with hr; exact ⟨_, hr.symm⟩
    · exact nomatch hr

/-- All that BLOCK can do when it goes through: new State words, the buffer consumed, the transient store without
content, and nothing else (44_compress.md R148). -/
theorem blockProc_ok {s t : State} (h : blockProc s = .ok t) :
    ∃ v, t = { s with v := v, buf := [], transient := .unspecified } := by
  obtain ⟨s1, h1, h⟩ := bind_ok h
  obtain ⟨s2, h2, h⟩ := bind_ok h
  obtain ⟨s3, h3, h⟩ := bind_ok h
  obtain ⟨s4, h4, h⟩ := bind_ok h
  obtain ⟨s5, h5, h⟩ := bind_ok h
  obtain ⟨s6, h6, h⟩ := bind_ok h
  obtain ⟨x1, rfl⟩ : ∃ x, s1 = { s with transient := x } := by
    obtain ⟨w, _, hw⟩ := bind_ok h1
    injection hw with hw; exact ⟨_, hw.symm⟩
  obtain ⟨x2, rfl⟩ : ∃ x, s2 = { s with transient := x } := by
    unfold expand at h2; split at h2
    · injection h2 with h2; exact ⟨_, h2.symm⟩
    · exact nomatch h2
  obtain ⟨x3, rfl⟩ : ∃ x, s3 = { s with transient := x } := by
    unfold prime at h3; split at h3
    · injection h3 with h3; exact ⟨_, h3.symm⟩
    · exact nomatch h3
  obtain ⟨x4, rfl⟩ : ∃ x, s4 = { s with transient := x } := by
    unfold cload at h4; split at h4
    · injection h4 with h4; exact ⟨_, h4.symm⟩
    · exact nomatch h4
  obtain ⟨x5, rfl⟩ := rounds_ok h5
  unfold foldState at h6
  split at h6
  · injection h6 with h6; subst h6
    injection h with h; exact ⟨_, h.symm⟩
  · exact nomatch h6

/-- All that APPEND can do when it goes through (42_padder.md R113): store the byte and count it, or fill the buffer and
run BLOCK. -/
theorem appendByte_ok {b : Byte} {s t : State} (h : appendByte b s = .ok t) :
    (s.fill ≠ 63 ∧ t = { s with buf := s.buf.write s.fill.toNat b, fill := s.fill + 1 }) ∨
    (s.fill = 63 ∧ ∃ v, t = { s with v := v, fill := 0, buf := [], transient := .unspecified }) := by
  obtain ⟨u, hu, h⟩ := bind_ok h
  obtain ⟨_, rfl⟩ := storeByte_ok hu
  split at h
  · obtain ⟨v, rfl⟩ := blockProc_ok h
    exact .inr ⟨‹_›, v, rfl⟩
  · injection h with h; exact .inl ⟨‹_›, h.symm⟩

theorem storeZeros_ok {s t : State} {lo n : Nat} (h : storeZeros s lo n = .ok t) : ∃ m, t = { s with buf := m } := by
  induction n generalizing t with
  | zero => injection h with h; exact ⟨s.buf, h.symm⟩
  | succ n ih =>
    obtain ⟨u, hu, h⟩ := bind_ok h
    obtain ⟨m, rfl⟩ := ih hu
    obtain ⟨_, rfl⟩ := storeByte_ok h
    exact ⟨_, rfl⟩

theorem memWriteFirst_ok {s t : State} {a n k : Nat} {v : BitVec (8 * n)} (h : memWriteFirst s a n v k = .ok t) :
    ∃ m, t = { s with buf := m } := by
  induction k generalizing t with
  | zero => injection h with h; exact ⟨s.buf, h.symm⟩
  | succ n ih =>
    obtain ⟨u, hu, h⟩ := bind_ok h
    obtain ⟨m, rfl⟩ := ih hu
    obtain ⟨_, rfl⟩ := storeByte_ok h
    exact ⟨_, rfl⟩

/-- All that PADFIN can do when it goes through (R115). -/
theorem padfin_ok {s t : State} (h : padfin s = .ok t) :
    ∃ v, t = { s with v := v, fill := 0, buf := [], transient := .unspecified } := by
  obtain ⟨s1, h1, h⟩ := bind_ok h
  obtain ⟨_, rfl⟩ := storeByte_ok h1
  obtain ⟨s2, h2, h⟩ := bind_ok h
  obtain ⟨s3, h3, h⟩ := bind_ok h
  obtain ⟨s4, h4, h⟩ := bind_ok h
  obtain ⟨m3, rfl⟩ := memWriteFirst_ok h3
  obtain ⟨v4, rfl⟩ := blockProc_ok h4
  injection h with h; subst h
  unfold padZeros at h2
  split at h2
  · obtain ⟨a, ha, h2⟩ := bind_ok h2
    obtain ⟨c, hc, h2⟩ := bind_ok h2
    obtain ⟨ma, rfl⟩ := storeZeros_ok ha
    obtain ⟨vc, rfl⟩ := blockProc_ok hc
    obtain ⟨m2, rfl⟩ := storeZeros_ok h2
    exact ⟨_, rfl⟩
  · obtain ⟨m2, rfl⟩ := storeZeros_ok h2
    exact ⟨_, rfl⟩

/-- All that a step can do: hold the state, run a command, raise or discard an illegal word, reset, or cut a command
short. -/
theorem step_cases {s t : State} (h : step s = .next t) :
    (s.port = [] ∧ t = s) ∨
    (∃ w i rest, s.port = .command w :: rest ∧ decode w = .command i ∧ exec i { s with port := rest } = .next t) ∨
    (∃ w y rest, s.port = .command w :: rest ∧ decode w = .illegal y ∧ t = execIllegal { s with port := rest }) ∨
    (∃ rest, s.port = .reset :: rest ∧ t = resetEngine { s with port := rest }) ∨
    (∃ w rest, s.port = .commandCutByReset w :: rest ∧
      t = cutByReset { s with port := rest } (runWord w { s with port := rest })) := by
  unfold step at h
  split at h
  · injection h with h; exact .inl ⟨‹_›, h.symm⟩
  · rename_i e rest hp
    cases e with
    | command w =>
      simp only [runEvent, runWord] at h
      split at h
      · exact .inr (.inl ⟨w, _, rest, hp, ‹_›, h⟩)
      · injection h with h; exact .inr (.inr (.inl ⟨w, _, rest, hp, ‹_›, h.symm⟩))
    | reset => injection h with h; exact .inr (.inr (.inr (.inl ⟨rest, hp, h.symm⟩)))
    | commandCutByReset w => injection h with h; exact .inr (.inr (.inr (.inr ⟨w, rest, hp, h.symm⟩)))

end Sys2Proof.Machine
end

