-- ==== Sys2Proof/Laws/Padder.lean ====
section
/-!
SUPPORT. What APPEND, PADFIN and the LEN register do, said forwards: for the proofs of the statements about PUSH and
FINAL.
-/

namespace Sys2Proof.Machine

/-- The limit of LEN as a number (42_padder.md R114). -/
theorem lenLimit_toNat (cfg : Config) : (lenLimit cfg).toNat = 2 ^ cfg.lenw.bits - 8 := by
  cases h : cfg.lenw <;> simp [lenLimit, LenWidth.bits, h]

theorem len_eq_limit_iff (x : BitVec 64) (cfg : Config) : x = lenLimit cfg ↔ x.toNat = 2 ^ cfg.lenw.bits - 8 := by
  rw [← BitVec.toNat_inj, lenLimit_toNat]

/-- The LEN register keeps `LENW` bits (10_state.md R25). -/
theorem and_lenMask_toNat (x : BitVec 64) (cfg : Config) : (x &&& lenMask cfg).toNat = x.toNat % 2 ^ cfg.lenw.bits := by
  have hx := x.isLt
  cases h : cfg.lenw
  · have e : lenMask cfg = BitVec.allOnes 64 := by simp only [lenMask, h]; decide
    rw [e, BitVec.and_allOnes]
    exact (Nat.mod_eq_of_lt hx).symm
  · have e : (lenMask cfg).toNat = 2 ^ 32 - 1 := by simp only [lenMask, h]; decide
    rw [BitVec.toNat_and, e, Nat.and_two_pow_sub_one_eq_mod]
    rfl

/-- Below its limit a LEN that is a multiple of 8 counts 8 up without wrapping. -/
theorem len_add_toNat {x : BitVec 64} {cfg : Config} (h8 : x.toNat % 8 = 0) (hle : x.toNat ≤ 2 ^ cfg.lenw.bits - 8)
    (hne : x.toNat ≠ 2 ^ cfg.lenw.bits - 8) : ((x + 8) &&& lenMask cfg).toNat = x.toNat + 8 := by
  have e : (8 : BitVec 64).toNat = 8 := rfl
  rw [and_lenMask_toNat, BitVec.toNat_add, e]
  cases h : cfg.lenw <;> simp only [h, LenWidth.bits] at hle hne ⊢ <;> omega

theorem fill_eq_63_iff (x : BitVec 6) : x = 63 ↔ x.toNat = 63 := by rw [← BitVec.toNat_inj]; rfl

/-- APPEND of a byte that does not fill the buffer (R113). -/
theorem appendByte_room {s : State} (b : Byte) (h : s.fill ≠ 63) :
    appendByte b s = .ok { s with buf := s.buf.write s.fill.toNat b, fill := s.fill + 1 } := by
  simp only [appendByte, storeByte_of_lt b s.fill.isLt, bind, Except.bind, if_neg h]

/-- APPEND of the byte that fills the buffer (R113). -/
theorem appendByte_last {s : State} (b : Byte) (h : s.fill = 63) :
    appendByte b s = blockProc { s with buf := s.buf.write 63 b, fill := 0 } := by
  have h' : s.fill.toNat = 63 := (fill_eq_63_iff _).mp h
  have hs := storeByte_of_lt (s := s) (a := 63) b (by decide)
  simp only [appendByte, h', hs, bind, Except.bind, if_pos h]

/-- PUSH in ABSORB below the limit is APPEND after LEN has counted the byte (R114). -/
theorem pushBody_below {s : State} (b : Byte) (h : s.len.toNat ≠ 2 ^ s.cfg.lenw.bits - 8) :
    pushBody b s = (appendByte b (writeLen s (s.len + 8))).map advance := by
  have h' : s.len ≠ lenLimit s.cfg := fun e => h ((len_eq_limit_iff _ _).mp e)
  rw [pushBody, if_neg h']
  cases appendByte b (writeLen s (s.len + 8)) <;> rfl

/-- What PADFIN leaves in the last block, given the bytes `before` of the block in progress and the address `n` of the byte
0x80 (`n = 64` where that byte stands in the block before). -/
def lastBlockByte (before : Memory) (len : BitVec 64) (n x : Nat) : Option Byte :=
  if 56 ≤ x then some (len.extractLsb' (8 * (7 - (x - 56))) 8)
  else if x < n then before.read x
  else if x = n then some 0x80
  else some 0

/-- PADFIN with room for the length field (R115): one BLOCK, on the buffer described. -/
theorem padfin_room (s : State) (h : s.fill.toNat ≤ 55) :
    ∃ m, padfin s = (blockProc { s with buf := m }).map (fun t => { t with fill := 0 }) ∧
      ∀ x, x < 64 → m.read x = lastBlockByte s.buf s.len s.fill.toNat x := by
  obtain ⟨m1, h1, r1, _⟩ := storeZeros_spec { s with buf := s.buf.write s.fill.toNat 0x80 } (s.fill.toNat + 1)
    (55 - s.fill.toNat) (by omega)
  obtain ⟨m2, h2, r2, _⟩ := memWriteFirst_spec { s with buf := m1 } 56 8 s.len 8 (by decide)
  refine ⟨m2, ?_, fun x hx => ?_⟩
  · simp only [padfin, storeByte_of_lt _ s.fill.isLt, padZeros, if_neg (show ¬ 56 ≤ s.fill.toNat by omega), h1, memWrite,
      bind, Except.bind]
    rw [h2]
    dsimp only
    cases blockProc { s with buf := m2 } <;> rfl
  · rw [r2, lastBlockByte]
    by_cases h56 : 56 ≤ x
    · rw [if_pos (by omega), if_pos h56]
    · rw [if_neg (by omega), if_neg h56]
      show m1.read x = _
      rw [r1]
      by_cases hn : x < s.fill.toNat
      · rw [if_neg (by omega), if_pos hn]; exact Memory.read_write_other _ (by omega)
      · rw [if_neg hn]
        by_cases he : x = s.fill.toNat
        · rw [if_neg (by omega), if_pos he, he]; exact Memory.read_write_same _ _ _
        · rw [if_pos (by omega), if_neg he]

/-- PADFIN without room for the length field (R115): a BLOCK on the bytes pushed, 0x80 and zeros, then a BLOCK on zeros and
the length field. -/
theorem padfin_no_room (s : State) (h : 56 ≤ s.fill.toNat) :
    ∃ m : Memory,
      (∀ x, x < 64 → m.read x =
        if x < s.fill.toNat then s.buf.read x else if x = s.fill.toNat then some 0x80 else some 0) ∧
      (∀ f, blockProc { s with buf := m } = .error f → padfin s = .error f) ∧
      ∀ t, blockProc { s with buf := m } = .ok t →
        ∃ m', padfin s = (blockProc { t with buf := m' }).map (fun t => { t with fill := 0 }) ∧
          ∀ x, x < 64 → m'.read x = if 56 ≤ x then some (s.len.extractLsb' (8 * (7 - (x - 56))) 8) else some 0 := by
  have hlt := s.fill.isLt
  obtain ⟨m1, h1, r1, _⟩ := storeZeros_spec { s with buf := s.buf.write s.fill.toNat 0x80 } (s.fill.toNat + 1)
    (63 - s.fill.toNat) (by omega)
  refine ⟨m1, fun x hx => ?_, fun f hf => ?_, fun t ht => ?_⟩
  · rw [r1]
    by_cases hn : x < s.fill.toNat
    · rw [if_neg (by omega), if_pos hn]; exact Memory.read_write_other _ (by omega)
    · rw [if_neg hn]
      by_cases he : x = s.fill.toNat
      · rw [if_neg (by omega), if_pos he, he]; exact Memory.read_write_same _ _ _
      · rw [if_pos (by omega), if_neg he]
  · simp only [padfin, storeByte_of_lt _ s.fill.isLt, padZeros, if_pos h, h1, bind, Except.bind]
    rw [hf]
  · obtain ⟨v, rfl⟩ := blockProc_ok ht
    obtain ⟨m2, h2, r2, _⟩ := storeZeros_spec
      { s with v := v, buf := [], transient := .unspecified } 0 56 (by decide)
    obtain ⟨m3, h3, r3, _⟩ := memWriteFirst_spec
      { s with v := v, buf := m2, transient := .unspecified } 56 8 s.len 8 (by decide)
    refine ⟨m3, ?_, fun x hx => ?_⟩
    · simp only [padfin, storeByte_of_lt _ s.fill.isLt, padZeros, if_pos h, h1, bind, Except.bind]
      rw [ht]
      simp only [h2, memWrite]
      rw [h3]
      dsimp only
      cases blockProc { s with v := v, buf := m3, transient := .unspecified } <;> rfl
    · rw [r3]
      by_cases h56 : 56 ≤ x
      · rw [if_pos (by omega), if_pos h56]
      · rw [if_neg (by omega), if_neg h56]
        show m2.read x = _
        rw [r2, if_pos (by omega)]

end Sys2Proof.Machine
end

