-- ==== Sys2Proof/Laws/Exec.lean ====
section
/-!
SUPPORT. All that a command can do, said once, and how runs are put together: for the proofs over all commands and for
the end-to-end statement.
-/

namespace Sys2Proof.Machine

/-- All that PUSH can do after the phase check (42_padder.md R114). -/
theorem pushBody_cases {b : Byte} {s t : State} (h : pushBody b s = .ok t) :
    (s.len.toNat = 2 ^ s.cfg.lenw.bits - 8 ∧ t = raise .inputTooLarge s) ∨
    (s.len.toNat ≠ 2 ^ s.cfg.lenw.bits - 8 ∧
      ∃ u, appendByte b (writeLen s (s.len + 8)) = .ok u ∧ t = advance u) := by
  by_cases hl : s.len.toNat = 2 ^ s.cfg.lenw.bits - 8
  · simp only [pushBody, (len_eq_limit_iff _ _).mpr hl, if_true] at h
    injection h with h; exact .inl ⟨hl, h.symm⟩
  · rw [pushBody_below b hl] at h
    cases hu : appendByte b (writeLen s (s.len + 8)) with
    | ok u => rw [hu] at h; injection h with h; exact .inr ⟨hl, u, rfl, h.symm⟩
    | error e => rw [hu] at h; exact nomatch h

/-- PUSH and FINAL are executed in phase ABSORB only, DIGEST in phase DONE only (30_encoding.md R71). -/
theorem admission_push {b : Byte} {p : Phase} (h : admission (.push b) p = .execute) : p = .absorb := by
  cases p <;> simp [admission] at h ⊢

theorem admission_final {p : Phase} (h : admission .final p = .execute) : p = .absorb := by
  cases p <;> simp [admission] at h ⊢

theorem admission_digest {p : Phase} (h : admission .digest p = .execute) : p = .done := by
  cases p <;> simp [admission] at h ⊢

/-- All that a command can do when it answers a next state, one line per case: INIT; PUSH at the limit, PUSH with room,
PUSH of the last byte; FINAL; DIGEST; the three read-backs; out of phase; discarded. -/
theorem exec_cases {i : Instr} {s t : State} (h : exec i s = .next t) :
    (i = .init ∧ t = advance (initBody s)) ∨
    (∃ b, i = .push b ∧ s.phase = .absorb ∧ s.len.toNat = 2 ^ s.cfg.lenw.bits - 8 ∧ t = raise .inputTooLarge s) ∨
    (∃ b, i = .push b ∧ s.phase = .absorb ∧ s.len.toNat ≠ 2 ^ s.cfg.lenw.bits - 8 ∧ s.fill ≠ 63 ∧
      t = advance { writeLen s (s.len + 8) with buf := s.buf.write s.fill.toNat b, fill := s.fill + 1 }) ∨
    (∃ b, i = .push b ∧ s.phase = .absorb ∧ s.len.toNat ≠ 2 ^ s.cfg.lenw.bits - 8 ∧ s.fill = 63 ∧
      appendByte b (writeLen s (s.len + 8)) = .ok { t with cp := s.cp } ∧
      ∃ v, t = advance { writeLen s (s.len + 8) with v := v, buf := [], fill := 0, transient := .unspecified }) ∨
    (i = .final ∧ s.phase = .absorb ∧ padfin s = .ok { t with cp := s.cp, phase := .absorb } ∧
      ∃ v, t = advance { s with v := v, fill := 0, buf := [], transient := .unspecified, phase := .done }) ∨
    (i = .digest ∧ s.phase = .done ∧ t = advance { s with out := s.out ++ (hexStr s.v).map .hex }) ∨
    (∃ x, i = .rdv x ∧ t = advance (emitResp s (stateWord s x))) ∨
    (∃ x, i = .rdlen x ∧ t = advance (emitResp s (lenHalf s x))) ∨
    (i = .rdst ∧ t = advance (emitResp s (status s))) ∨
    (admission i s.phase = .invalidInput ∧ t = raise .invalidInput s) ∨
    (admission i s.phase = .discard ∧ t = advance s) := by
  cases i with
  | init => injection h with h; subst h; simp
  | push b =>
    rcases whenAdmitted_next h with ⟨ha, hb⟩ | ⟨h1, rfl⟩ | ⟨h1, rfl⟩
    · have hp := admission_push ha
      rcases pushBody_cases hb with ⟨h1, rfl⟩ | ⟨hne, u, hu, rfl⟩
      · exact .inr (.inl ⟨b, rfl, hp, h1, rfl⟩)
      · rcases appendByte_ok hu with ⟨hf, rfl⟩ | ⟨hf, v, rfl⟩
        · exact .inr (.inr (.inl ⟨b, rfl, hp, hne, hf, rfl⟩))
        · exact .inr (.inr (.inr (.inl ⟨b, rfl, hp, hne, hf, hu, v, rfl⟩)))
    · simp [h1]
    · simp [h1, discardCommand]
  | final =>
    rcases whenAdmitted_next h with ⟨ha, hb⟩ | ⟨h1, rfl⟩ | ⟨h1, rfl⟩
    · have hp := admission_final ha
      obtain ⟨u, hu, hb⟩ := bind_ok hb
      obtain ⟨v, rfl⟩ := padfin_ok hu
      injection hb with hb; subst hb
      exact .inr (.inr (.inr (.inr (.inl ⟨rfl, hp, by rw [hu, ← hp]; rfl, v, rfl⟩))))
    · simp [h1]
    · simp [h1, discardCommand]
  | digest =>
    rcases whenAdmitted_next h with ⟨ha, hb⟩ | ⟨h1, rfl⟩ | ⟨h1, rfl⟩
    · have hp := admission_digest ha
      injection hb with hb; subst hb; rw [foldl_emitHex]; simp [hp]
    · simp [h1]
    · simp [h1, discardCommand]
  | rdv x => injection h with h; subst h; simp
  | rdlen x => injection h with h; subst h; simp
  | rdst => injection h with h; subst h; simp

/-- The step that takes a command's own word is that command. -/
theorem step_command {s : State} {w : CmdWord} {i : Instr} {rest : List HostEvent} (h : s.port = .command w :: rest)
    (hd : decode w = .command i) : step s = exec i { s with port := rest } := by
  simp only [step, h, runEvent, runWord, hd]

theorem core_run_succ {M : Host.Core} {k : Nat} {s t : M.State} (h : M.step s = .next t) :
    M.run (k + 1) s = M.run k t := by
  rw [Host.Core.run.eq_2, h]

theorem core_run_cases {M : Host.Core} {k : Nat} {s u : M.State} (h : M.run (k + 1) s = .next u) :
    ∃ t, M.step s = .next t ∧ M.run k t = .next u := by
  rw [Host.Core.run.eq_2] at h
  cases hs : M.step s with
  | next t => rw [hs] at h; exact ⟨t, rfl, h⟩
  | fault r => rw [hs] at h; exact nomatch h
  | refused r => rw [hs] at h; exact nomatch h

theorem runsTo_zero (s : State) : RunsTo 0 s s := rfl

/-- A step and then a run is a run. -/
theorem runsTo_succ {k : Nat} {s t u : State} (h : step s = .next t) (h2 : RunsTo k t u) : RunsTo (k + 1) s u :=
  (core_run_succ (M := core) h).trans h2

/-- A run and then a run is a run. -/
theorem runsTo_trans {k l : Nat} {s t u : State} (h : RunsTo k s t) (h2 : RunsTo l t u) : RunsTo (k + l) s u := by
  induction k generalizing s with
  | zero => unfold RunsTo at h; injection h with h; subst h; simpa using h2
  | succ k ih =>
    rw [show k + 1 + l = (k + l) + 1 by omega]
    obtain ⟨s', h1, h⟩ := core_run_cases (M := core) h
    exact runsTo_succ h1 (ih h)

end Sys2Proof.Machine
end

