-- ==== Sys2Proof/Laws/PerInstr.lean ====
section
/-!
SUPPORT. Statements about every instruction as syntax, one lemma per constructor. Family `WellFormedFields`: the fields a
command is written with (spec 30_encoding.md R62) pass every check of R65, and its opcode is its row's.
-/

namespace Sys2Proof.Laws.WellFormedFields

/-- The instruction is well formed, and its opcode field is the top four bits of its row (R63). -/
def Statement (i : Instr) : Prop := i.wellFormed = true ∧ i.fields.op = i.row.bits.extractLsb' 12 4

theorem init : Statement .init := ⟨rfl, by decide⟩
theorem push (byte : Byte) : Statement (.push byte) := ⟨rfl, show (2#4) = rowPush.bits.extractLsb' 12 4 by decide⟩
theorem final : Statement .final := ⟨rfl, by decide⟩
theorem digest : Statement .digest := ⟨rfl, by decide⟩
theorem rdv (idx : Fin 8) : Statement (.rdv idx) := by revert idx; unfold Statement; decide
theorem rdlen (sel : Fin 2) : Statement (.rdlen sel) := by revert sel; unfold Statement; decide
theorem rdst : Statement .rdst := ⟨rfl, by decide⟩

end Sys2Proof.Laws.WellFormedFields
end

