-- ==== Sys2Proof/Tests/Slice0.lean ====
section
/-!
SUPPORT. The model's own tests. Expected values are the spec's: 95_test_vectors.md (its section is named at each test),
43_schedule.md R134, or the examples of the rule named. Then the witnesses: for every statement with hypotheses, a concrete
state and operands that meet them.
-/

namespace Sys2Proof.Tests

set_option Elab.async false

open Sys2Proof.Machine

/-! ### Helpers -/

/-- The next state of an outcome, if it is one. -/
def nextOf : Result → Option State
  | .next t => some t
  | .fault _ => none
  | .refused _ => none

theorem nextOf_some {r : Result} {t : State} (h : nextOf r = some t) : r = .next t := by
  cases r with
  | next u => injection h with h; rw [h]
  | fault f => exact nomatch h
  | refused f => exact nomatch h

/-- A buffer whose first `n` bytes are 0x61. -/
def letters (n : Nat) : Memory := (List.range n).map fun a => (a, 0x61#8)

/-- After INIT and `n < 64` commands `PUSH 0x61`. -/
def absorbing (n : Nat) : State :=
  { State.reset with phase := .absorb, len := BitVec.ofNat 64 (8 * n), fill := BitVec.ofNat 6 n, buf := letters n }

/-- The digest State of "abc" (95 section 7). -/
def abcWords : Words8 :=
  #v[0x66c7f0f4#32, 0x62eeedd9#32, 0xd1f2d46b#32, 0xdc10e4e2#32, 0x4167c487#32, 0x5cf2f7a2#32, 0x297da02b#32, 0x8f4ba8e0#32]

/-- After hashing "abc". -/
def doneAbc : State := { State.reset with phase := .done, v := abcWords, len := 24 }

/-- The engine in FAULT with a cause, two bytes pushed. -/
def faulted (c : Cause) : State := { absorbing 2 with phase := .fault, cause := c }

/-- LENW = 32 instead of 64. -/
def with32 (s : State) : State := { s with cfg := { s.cfg with lenw := .w32 } }

/-- Another value of LEN, which no practical run reaches. -/
def withLen (x : BitVec 64) (s : State) : State := { s with len := x }

/-- The bytes of text. -/
def ascii (s : String) : List Byte := s.toList.map fun c => BitVec.ofNat 8 c.toNat

/-- The phase, cause, LEN, FILL and STATUS of a next state. -/
def summary (r : Result) : Option (Phase × Cause × BitVec 64 × BitVec 6 × Word) :=
  (nextOf r).map fun t => (t.phase, t.cause, t.len, t.fill, status t)

/-- The response word that a command added to an empty history. -/
def response (r : Result) : Option (List OutEvent) := (nextOf r).map fun t => t.out

/-! ### Well-formedness: a term that each check refuses -/

theorem test_legal_refuses_opcode_zero : (Fields.mk 0 0 0).legal = false ∧ (Fields.mk 0 0 0).opcodeInUse = false := by
  decide
theorem test_legal_refuses_opcode_eight : (Fields.mk 8 0 0).legal = false ∧ (Fields.mk 15 0 0).opcodeInUse = false := by
  decide
theorem test_legal_refuses_zero_field : (Fields.mk 1 1 0).legal = false ∧ (Fields.mk 2 8 0x61).zeroClear = false := by
  decide
theorem test_legal_refuses_imm :
    (Fields.mk 1 0 1).immInRange = false ∧ (Fields.mk 3 0 0x80).immInRange = false ∧
    (Fields.mk 4 0 1).immInRange = false ∧ (Fields.mk 5 0 8).immInRange = false ∧
    (Fields.mk 6 0 2).immInRange = false ∧ (Fields.mk 7 0 1).immInRange = false := by decide
theorem test_legal_admits :
    (Fields.mk 2 0 0xFF).legal = true ∧ (Fields.mk 5 0 7).legal = true ∧ (Fields.mk 6 0 1).legal = true := by decide
theorem test_line_refuses_byte : (SourceLine.push 256).wellFormed = false ∧ (SourceLine.pushn 3 256).wellFormed = false := by
  decide
theorem test_line_refuses_index : (SourceLine.rdv 8).wellFormed = false ∧ (SourceLine.rdlen 2).wellFormed = false := by decide
theorem test_line_refuses_word : (SourceLine.word 65536).wellFormed = false := by decide
theorem test_line_refuses_text :
    (SourceLine.pushs ['é']).wellFormed = false ∧ (SourceLine.hash ['a', '€']).wellFormed = false := by decide
theorem test_line_refuses_hex :
    (SourceLine.pushx ['6']).wellFormed = false ∧ (SourceLine.pushx ['6', 'g']).wellFormed = false := by decide

/-! ### Decode: words written out from the patterns of 30_encoding.md R63, and 95 section 6.3 -/

theorem test_decode_init : decode 0b0001000000000000#16 = .command .init := by decide
theorem test_decode_push :
    decode 0b0010000001100001#16 = .command (.push 0x61#8) ∧ decode 0x2000#16 = .command (.push 0#8) ∧
    decode 0x20FF#16 = .command (.push 0xFF#8) := by decide
theorem test_decode_final : decode 0b0011000000000000#16 = .command .final := by decide
theorem test_decode_digest : decode 0b0100000000000000#16 = .command .digest := by decide
theorem test_decode_rdv :
    decode 0b0101000000000000#16 = .command (.rdv 0) ∧ decode 0b0101000000000101#16 = .command (.rdv 5) ∧
    decode 0b0101000000000111#16 = .command (.rdv 7) := by decide
theorem test_decode_rdlen :
    decode 0b0110000000000000#16 = .command (.rdlen 0) ∧ decode 0b0110000000000001#16 = .command (.rdlen 1) := by decide
theorem test_decode_rdst : decode 0b0111000000000000#16 = .command .rdst := by decide
theorem test_decode_illegal :
    [0x0000#16, 0x0061#16, 0x1001#16, 0x1100#16, 0x2100#16, 0x3080#16, 0x4001#16, 0x5008#16, 0x6002#16, 0x7001#16,
      0x8000#16, 0xF000#16, 0xFFFF#16].map decode =
    [.illegal (.opcodeNotInUse 0), .illegal (.opcodeNotInUse 0), .illegal .immBitsSet, .illegal .zeroFieldSet,
      .illegal .zeroFieldSet, .illegal .immBitsSet, .illegal .immBitsSet, .illegal .immBitsSet, .illegal .immBitsSet,
      .illegal .immBitsSet, .illegal (.opcodeNotInUse 8), .illegal (.opcodeNotInUse 15),
      .illegal (.opcodeNotInUse 15)] := by decide
theorem test_encode :
    [Instr.init, .push 0x61, .final, .digest, .rdv 7, .rdlen 1, .rdst].map encode =
      [0x1000#16, 0x2061#16, 0x3000#16, 0x4000#16, 0x5007#16, 0x6001#16, 0x7000#16] := by decide
theorem test_table_word :
    decodeTableWord 16 0x2061 = some (.push 0x61) ∧ decodeTableWord 16 0x5008 = none ∧ decodeTableWord 8 0x70 = none := by
  decide
theorem test_fetch_word : step (State.reset.withFetchWord 16 0x1000) = exec .init State.reset := by rfl

/-! ### Datapath (95 section 2) -/

theorem test_add32_wraps : add32 0xDEADBEEF 0x12345678 = 0xF0E21567#32 ∧ add32 0xFFFFFFFF 1 = 0#32 := by decide
theorem test_rotl :
    rotl 0x12345678 0 = 0x12345678#32 ∧ rotl 0x12345678 31 = 0x091A2B3C#32 ∧ rotl 0xA96F30BC 19 = 0x85E54B79#32 := by decide
theorem test_p0 : p0 0xDF057B3B = 0x2384B28F#32 ∧ p0 1 = 0x00020201#32 := by decide
theorem test_p1 : p1 0xDF057B3B = 0xFF771604#32 ∧ p1 1 = 0x00808001#32 := by decide
theorem test_trot : tRot 15 = 0x228CBCE6#32 ∧ tRot 32 = 0x7A879D8A#32 ∧ tRot 47 = 0xCEC53D43#32 := by decide
theorem test_ff :
    ff 0x7380166F 0x4914B2B9 0x172442D7 15 = 0x2DB0E601#32 ∧ ff 0x7380166F 0x4914B2B9 0x172442D7 16 = 0x530412FF#32 ∧
    ff 0xF0F0F0F0 0xCCCCCCCC 0xAAAAAAAA 16 = 0xE8E8E8E8#32 := by decide
theorem test_gg :
    gg 0x7380166F 0x4914B2B9 0x172442D7 15 = 0x2DB0E601#32 ∧ gg 0x7380166F 0x4914B2B9 0x172442D7 16 = 0x452452B9#32 ∧
    gg 0xF0F0F0F0 0xCCCCCCCC 0xAAAAAAAA 16 = 0xCACACACA#32 := by decide

/-! ### Schedule and compression (43_schedule.md R134; 95 sections 4 and 5) -/

/-- The padded block of "abc". -/
def abcBlock : Block := blockAt (pad (ascii "abc")) 0

/-- The block 00 01 … 3F. -/
def countBlock : Block := Vector.ofFn fun a => BitVec.ofNat 8 a.val

theorem test_schedule_abc :
    (schedW abcBlock)[15] = 0x00000018#32 ∧ (schedW abcBlock)[16] = 0x9092E200#32 ∧ (schedW abcBlock)[67] = 0xB99C0545#32 ∧
    (schedWp abcBlock)[12] = 0x9092E200#32 ∧ (schedWp abcBlock)[63] = 0x49E260D5#32 := by decide +kernel
theorem test_schedule_count :
    (schedW countBlock)[3] = 0x0c0d0e0f#32 ∧ (schedW countBlock)[16] = 0x69e96beb#32 ∧
    (schedW countBlock)[64] = 0x3a543856#32 ∧ (schedWp countBlock)[62] = 0xd2f3d2f3#32 := by decide +kernel
theorem test_round_zero_abc :
    roundWork 0 (workOfV defaultIv) 0x61626380 0x61626380 =
      { a := 0xb9edc12b, b := 0x7380166f, c := 0x29657292, d := 0x172442d7,
        e := 0xb2ad29f4, f := 0xa96f30bc, g := 0xc550b189, h := 0xe38dee4d } := by decide +kernel
theorem test_round_sixteen_abc :
    roundsPure (schedW abcBlock) (schedWp abcBlock) 17 (by decide) (workOfV defaultIv) =
      { a := 0x796afab1, b := 0x34d1691e, c := 0xa52ef0f8, d := 0x92b57849,
        e := 0x067550f5, f := 0x61f99646, g := 0xc999f74a, h := 0x2aa0d251 } := by decide +kernel
theorem test_compress_count :
    compress defaultIv countBlock =
      #v[0x96a60ec7#32, 0x1e7ec7a7#32, 0x890a07dc#32, 0xbef2aea6#32, 0x9cf8936b#32, 0xd3f6d07f#32, 0x47597d30#32,
         0x97db3ccb#32] := by decide +kernel
theorem test_compress_zero :
    compress (Vector.replicate 8 0) (Vector.replicate 64 0) =
      #v[0x2762550f#32, 0x18134933#32, 0xba35ce4e#32, 0x0a757e65#32, 0x8c0e7205#32, 0xfe9e4ff6#32, 0x5ac5c88b#32,
         0xa3649ac2#32] := by decide +kernel

/-! ### Commands, one step each (95 sections 3.3, 6.1, 6.2, 6.4) -/

theorem test_init_clears_fault :
    summary (exec .init (faulted .illegalCommand)) = some (.absorb, .noFault, 0, 0, 1) := by decide +kernel
theorem test_init_reloads :
    (nextOf (exec .init doneAbc)).map (fun t => t.v[0]) = some 0x7380166f#32 := by decide +kernel
theorem test_push_last_of_block :
    (nextOf (exec (.push 0x61) (absorbing 63))).map (fun t => (t.v, t.len.toNat, t.fill.toNat, (status t).toNat)) =
      some (#v[0xa5136b61#32, 0x62610c3f#32, 0x9a9386e6#32, 0xdb0fe112#32, 0x30e6de4f#32, 0x89892d3b#32, 0x853b0db1#32,
        0xf25a078f#32], 512, 0, 1) := by decide +kernel
theorem test_push_at_limit :
    [exec (.push 0xBB) (withLen 0xFFFFFFFFFFFFFFF8 (absorbing 63)),
      exec (.push 0xBB) (with32 (withLen 0xFFFFFFF8 (absorbing 63))),
      exec (.push 0xAA) (with32 (withLen 0xFFFFFFF0 (absorbing 62)))].map summary =
    [some (.fault, .inputTooLarge, 0xFFFFFFFFFFFFFFF8, 63, 0x3FB), some (.fault, .inputTooLarge, 0xFFFFFFF8, 63, 0x3FB),
      some (.absorb, .noFault, 0xFFFFFFF8, 63, 0x3F1)] := by decide +kernel
theorem test_final_abc :
    (nextOf (exec .final { absorbing 3 with buf := [(0, 0x61), (1, 0x62), (2, 0x63)] })).map
      (fun t => (t.v, t.phase, t.len.toNat, t.buf)) = some (abcWords, .done, 24, []) := by decide +kernel
theorem test_final_two_blocks :
    (nextOf (exec .final (absorbing 56))).map (fun t => hexStr t.v) =
      some (ascii "ba00ebedaab54065a5fd4f9f56326016203166bcee3eed44ea868d59d67aa3c8") := by decide +kernel
theorem test_digest_abc :
    response (exec .digest doneAbc) =
      some ((ascii "66c7f0f462eeedd9d1f2d46bdc10e4e24167c4875cf2f7a2297da02b8f4ba8e0").map .hex) := by decide +kernel
theorem test_digest_out_of_phase :
    summary (exec .digest (absorbing 1)) = some (.fault, .invalidInput, 8, 1, 0x17) := by decide +kernel
theorem test_rdv : response (exec (.rdv 7) State.reset) = some [.resp 0xB0FB0E4E] := by decide +kernel
theorem test_rdv_done : response (exec (.rdv 6) doneAbc) = some [.resp 0x297DA02B] := by decide +kernel
theorem test_rdlen :
    response (exec (.rdlen 0) { State.reset with len := 0xFFFFFFFFFFFFFFF8 }) = some [.resp 0xFFFFFFF8] ∧
    response (exec (.rdlen 1) { State.reset with len := 0xFFFFFFFFFFFFFFF8 }) = some [.resp 0xFFFFFFFF] := by decide +kernel
theorem test_rdlen_w32 :
    response (exec (.rdlen 1) (with32 { State.reset with len := 0xFFFFFFF8 })) = some [.resp 0] := by decide +kernel
theorem test_rdst : response (exec .rdst (faulted .illegalCommand)) = some [.resp 0x2F] := by decide +kernel
theorem test_rdst_full : response (exec .rdst (absorbing 63)) = some [.resp 0x3F1] := by decide +kernel
theorem test_illegal_word :
    summary (runWord 0x0000 (absorbing 2)) = some (.fault, .illegalCommand, 16, 2, 0x2F) ∧
    summary (runWord 0x0000 (faulted .invalidInput)) = some (.fault, .invalidInput, 16, 2, 0x27) := by decide +kernel
theorem test_reset_in_fault :
    summary (runEvent .reset (faulted .invalidInput)) = some (.idle, .noFault, 0, 0, 0) := by decide +kernel

/-! ### Whole messages (95 sections 3.2, 7 and 9) -/

theorem test_hash_abcd16 :
    hashBytes defaultConfig (List.replicate 16 (ascii "abcd")).flatten =
      .ok (ascii "debe9ff92275b8a138604889c18e5a4d6fdb70e5387e5765293dcba39c0c5732") := by decide +kernel
theorem test_hash_zero_iv :
    hashBytes { defaultConfig with iv := Vector.replicate 8 0 } (ascii "abc") =
      .ok (ascii "493b4001f9418b45e34cac0df066e8335ae0d4ce62dbe94665224274b50771ac") := by decide +kernel
theorem test_padded_lengths :
    [0, 1, 54, 55, 56, 63, 64, 119, 120, 128].map (fun n => (pad (List.replicate n 0x61)).length) =
      [64, 64, 64, 64, 128, 128, 128, 128, 192, 192] := by decide +kernel
theorem test_password_euro :
    passwordDigest defaultConfig (.points [0x20AC]) =
      .ok (ascii "bc4b8039bf1c629333b67888a36e190b3af77a52bc7274dfa23d03e10ab61c83") := by decide +kernel
theorem test_password_refused :
    passwordDigest defaultConfig (.units [0xD800]) = .error .invalidInput ∧
    passwordDigest defaultConfig .notAString = .error .invalidInput := by decide +kernel
theorem test_utf8 :
    encodePoint 0x7F = .ok [0x7F] ∧ encodePoint 0x80 = .ok [0xC2, 0x80] ∧ encodePoint 0x7FF = .ok [0xDF, 0xBF] ∧
    encodePoint 0x800 = .ok [0xE0, 0xA0, 0x80] ∧ encodePoint 0xFFFF = .ok [0xEF, 0xBF, 0xBF] ∧
    encodePoint 0x10000 = .ok [0xF0, 0x90, 0x80, 0x80] ∧ encodePoint 0x10FFFF = .ok [0xF4, 0x8F, 0xBF, 0xBF] ∧
    encodePoint 0x110000 = .error .invalidInput := by decide +kernel
theorem test_surrogate_pair : hostBytes (.units [0xD83D, 0xDE00]) = .ok [0xF0, 0x9F, 0x98, 0x80] := by decide +kernel
theorem test_assemble :
    assemble [.hash ['a', 'b', 'c'], .rdst, .pushn 2 0x61, .pushx ['6', '1', 'f', 'F'], .word 0xFFFF] =
      some [0x1000, 0x2061, 0x2062, 0x2063, 0x3000, 0x4000, 0x7000, 0x2061, 0x2061, 0x2061, 0x20FF, 0xFFFF] := by
  decide +kernel

/-! ### Witnesses: a concrete state and operands that meet the hypotheses of each statement -/

theorem witness_EncodeOfDecodeIsIdentity : decode 0x6001 = .command (.rdlen 1) := by decide

/-- A state whose next event is a word. -/
def sending (w : CmdWord) (s : State) : State := { s with port := [.command w, .reset] }

theorem witness_StepRunsDecodedInstruction :
    (sending 0x2061 (absorbing 63)).port = .command 0x2061 :: [.reset] ∧ decode 0x2061 = .command (.push 0x61) := by decide

/-- Both clauses: a phase that takes the fault, and FAULT. -/
theorem witness_StepTakesIllegalWord :
    (sending 0x5008 doneAbc).port = .command 0x5008 :: [.reset] ∧
    (∀ r ∈ opcodeTable, (0x5008 : CmdWord) &&& r.mask ≠ r.bits) ∧ (sending 0x5008 doneAbc).phase ≠ .fault ∧
    (sending 0x5008 (faulted .invalidInput)).port = .command 0x5008 :: [.reset] ∧
    (sending 0x5008 (faulted .invalidInput)).phase = .fault := by decide

theorem witness_StepWithNothingSentHoldsState : (absorbing 3).port = [] := by decide

/-- Both ends of the amount: 0 and 31, and the ends of the bit index. -/
theorem witness_RotationIsCircular : (0 ≤ 31 ∧ 0 = 0) ∧ (31 ≤ 31 ∧ 1 ≤ 31) ∧ 0 < 32 ∧ 31 < 32 := by decide

theorem witness_PermutationsByBits : 0 < 32 ∧ 31 < 32 := by decide

/-- The rounds 15 and 16, where FF and GG change. -/
theorem witness_RoundFunctionsByBits : 31 < 32 ∧ 15 < 16 ∧ 16 ≤ 16 := by decide

/-- The rounds 15, 16 and 63 of the constants; 16 and 31 of the repetition. -/
theorem witness_RotatedConstantTable :
    15 < 16 ∧ (16 ≤ 16 ∧ 16 ≤ 63) ∧ (16 ≤ 63 ∧ 63 ≤ 63) ∧ (16 ≤ 16 ∧ 16 ≤ 31) ∧ (16 ≤ 31 ∧ 31 ≤ 31) := by decide

theorem witness_ScheduleFollowsRecurrence : 15 < 16 ∧ (16 ≤ 16 ∧ 16 ≤ 67) ∧ (16 ≤ 67 ∧ 67 ≤ 67) ∧ 63 ≤ 63 := by decide

/-- The engine in the middle of BLOCK, before its rounds. -/
def inRounds : State :=
  { absorbing 3 with transient := .working (schedW abcBlock) (schedWp abcBlock) (workOfV defaultIv) }

theorem witness_RoundWritesSimultaneously :
    inRounds.transient = .working (schedW abcBlock) (schedWp abcBlock) (workOfV defaultIv) := rfl

theorem witness_CompressIsFoldOfRounds : 0 < 64 ∧ 63 < 64 := by decide

/-- A block of 64 letters. -/
def letterBlock : Block := Vector.replicate 64 0x61

/-- A buffer full of letters, before BLOCK. -/
def full : State := { absorbing 63 with buf := letters 64 }

theorem witness_BlockFoldsCompress : ∀ a (h : a < 64), full.buf.read a = some letterBlock[a] := by decide +kernel

/-- The first and the last byte without value. -/
theorem witness_BlockStopsAtValuelessByte :
    (0 < 64 ∧ (∀ x, x < 0 → ((absorbing 0).buf.read x).isSome = true) ∧ (absorbing 0).buf.read 0 = none) ∧
    (63 < 64 ∧ (∀ x, x < 63 → ((absorbing 63).buf.read x).isSome = true) ∧ (absorbing 63).buf.read 63 = none) := by
  decide +kernel

/-- FILL 0 and 62, and LENW 64 and 32. -/
theorem witness_PushStoresByte :
    ((absorbing 0).phase = .absorb ∧ (absorbing 0).len.toNat ≠ 2 ^ (absorbing 0).cfg.lenw.bits - 8 ∧
      (absorbing 0).fill.toNat ≠ 63 ∧ 1 ≠ (absorbing 0).fill.toNat) ∧
    (with32 (absorbing 62)).phase = .absorb ∧
      (with32 (absorbing 62)).len.toNat ≠ 2 ^ (with32 (absorbing 62)).cfg.lenw.bits - 8 ∧
      (with32 (absorbing 62)).fill.toNat ≠ 63 ∧ 63 ≠ (with32 (absorbing 62)).fill.toNat := by decide +kernel

theorem witness_PushOfLastByteFoldsBlock :
    (absorbing 63).phase = .absorb ∧ (absorbing 63).len.toNat ≠ 2 ^ (absorbing 63).cfg.lenw.bits - 8 ∧
    (absorbing 63).fill.toNat = 63 ∧ (∀ a (h : a < 63), (absorbing 63).buf.read a = some letterBlock[a]) ∧
    letterBlock[63] = 0x61 := by decide +kernel

/-- The limit of LENW 64. -/
def atLimit : State := withLen 0xFFFFFFFFFFFFFFF8 (absorbing 63)

/-- The limit of LENW 32. -/
def atLimit32 : State := with32 (withLen 0xFFFFFFF8 (absorbing 63))

theorem witness_PushAtLimitFaults :
    (atLimit.phase = .absorb ∧ atLimit.len.toNat = 2 ^ atLimit.cfg.lenw.bits - 8) ∧
    atLimit32.phase = .absorb ∧ atLimit32.len.toNat = 2 ^ atLimit32.cfg.lenw.bits - 8 := by decide +kernel

/-- At the limit of LENW 32, with a command that completes: the fault, and INIT. -/
theorem witness_LengthCountsWithoutWrapping :
    atLimit32.len.toNat % 8 = 0 ∧ atLimit32.len.toNat ≤ 2 ^ atLimit32.cfg.lenw.bits - 8 ∧
    (∃ t, exec (.push 0xBB) atLimit32 = .next t) ∧ ∃ t, exec .init atLimit32 = .next t :=
  ⟨by decide +kernel, by decide +kernel, ⟨raise .inputTooLarge atLimit32, nextOf_some (by decide +kernel)⟩, _, rfl⟩

/-- The one block that FINAL makes of `n ≤ 55` letters. -/
def oneBlock (n : Nat) : Block :=
  Vector.ofFn fun a => if a.val < n then 0x61 else if a.val = n then 0x80 else
    if a.val < 56 then 0 else BitVec.ofNat 8 (8 * n / 2 ^ (8 * (7 - (a.val - 56))))

/-- The hypotheses of the one-block statement, at a state and a block. -/
def OneBlockCase (s : State) (B : Block) : Prop :=
  s.phase = .absorb ∧ s.fill.toNat ≤ 55 ∧ (∀ a (h : a < 64), a < s.fill.toNat → s.buf.read a = some B[a]) ∧
  (∀ a (h : a < 64), a = s.fill.toNat → B[a] = 0x80#8) ∧
  (∀ a (h : a < 64), s.fill.toNat < a → a < 56 → B[a] = 0#8) ∧
  ∀ k (h : k < 8), B[56 + k].toNat = s.len.toNat / 2 ^ (8 * (7 - k)) % 256

/-- FILL 0 and 55. -/
theorem witness_FinalWithRoomCompressesOneBlock :
    OneBlockCase (absorbing 0) (oneBlock 0) ∧ OneBlockCase (absorbing 55) (oneBlock 55) := by
  unfold OneBlockCase; decide +kernel

/-- The first of the two blocks that FINAL makes of `56 ≤ n ≤ 63` letters. -/
def firstBlock (n : Nat) : Block :=
  Vector.ofFn fun a => if a.val < n then 0x61 else if a.val = n then 0x80 else 0

/-- The second. -/
def secondBlock (n : Nat) : Block :=
  Vector.ofFn fun a => if a.val < 56 then 0 else BitVec.ofNat 8 (8 * n / 2 ^ (8 * (7 - (a.val - 56))))

/-- The hypotheses of the two-block statement, at a state and two blocks. -/
def TwoBlockCase (s : State) (B C : Block) : Prop :=
  s.phase = .absorb ∧ 56 ≤ s.fill.toNat ∧ (∀ a (h : a < 64), a < s.fill.toNat → s.buf.read a = some B[a]) ∧
  (∀ a (h : a < 64), a = s.fill.toNat → B[a] = 0x80#8) ∧ (∀ a (h : a < 64), s.fill.toNat < a → B[a] = 0#8) ∧
  (∀ a (h : a < 56), C[a] = 0#8) ∧
  ∀ k (h : k < 8), C[56 + k].toNat = s.len.toNat / 2 ^ (8 * (7 - k)) % 256

/-- FILL 56 and 63. -/
theorem witness_FinalWithoutRoomCompressesTwoBlocks :
    TwoBlockCase (absorbing 56) (firstBlock 56) (secondBlock 56) ∧
    TwoBlockCase (absorbing 63) (firstBlock 63) (secondBlock 63) := by
  unfold TwoBlockCase; decide +kernel

/-- Each clause: IDLE and DONE; IDLE and ABSORB; and a word that raises InvalidInput. -/
theorem witness_InvalidInputExactlyOutOfOrder :
    State.reset.phase = .idle ∧ doneAbc.phase = .done ∧ (absorbing 1).phase = .absorb ∧
    (absorbing 1).phase ≠ .fault ∧ runWord 0x4000 (absorbing 1) = .next (raise .invalidInput (absorbing 1)) ∧
    (raise .invalidInput (absorbing 1)).phase = .fault ∧ (raise .invalidInput (absorbing 1)).cause = .invalidInput :=
  ⟨rfl, rfl, rfl, by decide, nextOf_some (by decide +kernel), rfl, rfl⟩

/-- One word for each clause. -/
theorem witness_FaultPhaseDiscards :
    (faulted .invalidInput).phase = .fault ∧ decode 0x2061 = .command (.push 0x61) ∧ decode 0x3000 = .command .final ∧
    decode 0x4000 = .command .digest ∧ decode 0 = .illegal (.opcodeNotInUse 0) ∧ decode 0x5007 = .command (.rdv 7) ∧
    decode 0x6001 = .command (.rdlen 1) ∧ decode 0x7000 = .command .rdst := by decide

theorem witness_FaultEntryChangesNothingElse :
    atLimit.phase ≠ .fault ∧ runWord 0x20BB atLimit = .next (raise .inputTooLarge atLimit) ∧
    (raise .inputTooLarge atLimit).phase = .fault :=
  ⟨by decide, nextOf_some (by decide +kernel), rfl⟩

/-- Each clause, at the phases where they meet. -/
theorem witness_FaultPriority :
    ((faulted .invalidInput).phase = .fault ∧
      runWord 0 (faulted .invalidInput) = .next (discardCommand (faulted .invalidInput)) ∧
      (discardCommand (faulted .invalidInput)).phase = .fault) ∧
    (State.reset.phase ≠ .fault ∧ decode 0xFFFF = .illegal (.opcodeNotInUse 15)) ∧
    (State.reset.phase ≠ .fault ∧ decode 0x2061 = .command (.push 0x61) ∧ State.reset.phase ≠ .absorb) ∧
    (doneAbc.phase ≠ .fault ∧ decode 0x3000 = .command .final ∧ doneAbc.phase ≠ .absorb) ∧
    ((absorbing 1).phase ≠ .fault ∧ decode 0x4000 = .command .digest ∧ (absorbing 1).phase ≠ .done) ∧
    (atLimit32.phase = .absorb ∧ decode 0x20BB = .command (.push 0xBB) ∧
      atLimit32.len.toNat = 2 ^ atLimit32.cfg.lenw.bits - 8) :=
  ⟨⟨rfl, nextOf_some (by decide +kernel), rfl⟩, by decide, by decide, by decide, by decide, by decide +kernel⟩

/-- INIT, a reset, and a command cut by a reset, each taken in FAULT. -/
theorem witness_FaultLeftOnlyByInitOrReset :
    (∃ t, (faulted .invalidInput).phase = .fault ∧ step (sending 0x1000 (faulted .invalidInput)) = .next t ∧
      t.phase ≠ .fault) ∧
    (∃ t, step { faulted .invalidInput with port := [.reset] } = .next t ∧ t.phase ≠ .fault) ∧
    ∃ t, step { faulted .invalidInput with port := [.commandCutByReset 0x7000] } = .next t ∧ t.phase ≠ .fault :=
  ⟨⟨_, rfl, rfl, by decide⟩, ⟨_, rfl, by decide⟩, ⟨_, rfl, fun h => nomatch h⟩⟩

/-- INIT in DONE, the PUSH that fills the buffer, and FINAL, each of which changes `V`. -/
theorem witness_StateWordsWrittenOnlyByInitAndBlock :
    ((nextOf (exec .init doneAbc)).any fun t => t.v != doneAbc.v) = true ∧
    ((nextOf (exec (.push 0x61) (absorbing 63))).any fun t => t.v != (absorbing 63).v) = true ∧
    ((nextOf (exec .final (absorbing 3))).any fun t => t.v != (absorbing 3).v) = true := by decide +kernel

theorem witness_DigestEmitsHexString : doneAbc.phase = .done ∧ 0 < 64 ∧ 63 < 64 := by decide

/-- A decimal digit and a letter, 9 and 10 where they meet, and a character of a string. -/
theorem witness_DigestCharactersAreLowercaseHex :
    (9 : Nibble).toNat ≤ 9 ∧ 10 ≤ (10 : Nibble).toNat ∧ 0x66#8 ∈ hexStr abcWords := by decide +kernel

theorem witness_HexStringSpellsState : 0 < 64 ∧ 63 < 64 ∧ hexStr abcWords = hexStr abcWords := ⟨by decide, by decide, rfl⟩

theorem witness_EveryCommandAdvancesPointer :
    runWord 0xFFFF (faulted .invalidInput) = .next (discardCommand (faulted .invalidInput)) :=
  nextOf_some (by decide +kernel)

theorem witness_StepKeepsParameters : step (with32 (absorbing 3)) = .next (with32 (absorbing 3)) := rfl

/-- The two ways in which a word adds to the history. -/
theorem witness_OutputHistoryOnlyGrows :
    step (absorbing 3) = .next (absorbing 3) ∧
    ((nextOf (runWord 0x4000 doneAbc)).any fun t => t.out != doneAbc.out) = true ∧
    ((nextOf (runWord 0x7000 doneAbc)).any fun t => t.out != doneAbc.out) = true := ⟨rfl, by decide +kernel, by decide +kernel⟩

/-- Two different states with the same visible part: bytes left above FILL, and registers left in the transient store. -/
def dirty : State :=
  { sending 0x2061 (absorbing 3) with
    buf := letters 3 ++ [(9, 0xEE)], transient := .loaded (Vector.replicate 16 0xEEEEEEEE) }

theorem witness_HiddenStateIsUnobservable :
    HiddenOnly (sending 0x2061 (absorbing 3)) dirty ∧ sending 0x2061 (absorbing 3) ≠ dirty ∧
    ((nextOf (step (sending 0x2061 (absorbing 3)))).isSome = true) :=
  ⟨⟨rfl, by decide +kernel⟩, by decide +kernel, by decide +kernel⟩

theorem witness_ResetBetweenCommands :
    ({ absorbing 3 with port := [.reset] } : State).port = .reset :: [] := rfl

/-- A DIGEST cut by a reset: a command with outputs to cut. -/
theorem witness_ResetDuringCommand :
    let s : State := { doneAbc with port := [.commandCutByReset 0x4000] }
    s.port = .commandCutByReset 0x4000 :: [] ∧
    ∃ u e, runWord 0x4000 { s with port := [] } = .next u ∧ u.out = s.out ++ e ∧ e ≠ [] := by
  refine ⟨rfl, advance ((hexStr abcWords).foldl emitHex doneAbc), (hexStr abcWords).map .hex,
    nextOf_some (by decide +kernel), by decide +kernel, by decide +kernel⟩

/-! Invariants: a state in the middle of a message. -/

theorem letters_read (n a : Nat) : (letters n).read a = if a < n then some 0x61 else none := by
  have h : ∀ (l : List Nat) (a : Nat), Memory.read (l.map fun a => (a, 0x61#8)) a = if a ∈ l then some 0x61 else none := by
    intro l a
    induction l with
    | nil => rfl
    | cons k l ih =>
      by_cases hk : a = k
      · simp [Memory.read, hk]
      · simp [Memory.read, hk, ih]
  simpa [letters] using h (List.range n) a

theorem absorbing_inv : Inv (sending 0x2061 (absorbing 63)) where
  lenAligned := by decide
  lenFits := by decide
  faultIffCause := by decide
  fillInAbsorb := by decide
  fillOutside := by decide
  idleFresh := by decide
  bufWf := by decide +kernel
  bufBelowFill := fun a => by
    show ((letters 63).read a).isSome = true ↔ a < 63
    rw [letters_read]; split <;> simp_all
  transientOff := rfl

/-- The state meets the invariant, and its step (a PUSH that fills the buffer) completes. -/
theorem witness_InvKeptByEveryStep :
    Inv (sending 0x2061 (absorbing 63)) ∧ (nextOf (step (sending 0x2061 (absorbing 63)))).isSome = true :=
  ⟨absorbing_inv, by decide +kernel⟩

theorem witness_NoStepStopsUnderInv : Inv (sending 0x2061 (absorbing 63)) := absorbing_inv

theorem witness_BufferKeepsCanonicalForm :
    (sending 0x2061 (absorbing 62)).buf.wf = true ∧
    ((nextOf (step (sending 0x2061 (absorbing 62)))).any fun t => t.buf != []) = true := by decide +kernel

/-- `n < 64` letters absorbed. -/
theorem absorbed_letters (n : Nat) (h : n < 64) (w : CmdWord) :
    Absorbed (List.replicate n 0x61) (sending w (absorbing n)) where
  size := by
    have : 64 < maxBytes defaultConfig := by decide
    show _ ≤ maxBytes defaultConfig
    simp only [List.length_replicate]; omega
  len := by simp [sending, absorbing]; omega
  fill := by simp [sending, absorbing]
  state := by
    rw [List.length_replicate, Nat.div_eq_of_lt h]; rfl
  bytes := fun a => by
    rw [List.length_replicate, Nat.div_eq_of_lt h]
    show (letters n).read a = _
    rw [letters_read, List.getElem?_replicate]
    simp

/-- FILL 0 and 63. -/
theorem witness_PushExtendsMessage :
    ((sending 0x2061 (absorbing 0)).phase = .absorb ∧ Absorbed (List.replicate 0 0x61) (sending 0x2061 (absorbing 0))) ∧
    ((sending 0x2061 (absorbing 63)).phase = .absorb ∧ Absorbed (List.replicate 63 0x61) (sending 0x2061 (absorbing 63))) ∧
    (List.replicate 63 0x61#8).length < maxBytes (sending 0x2061 (absorbing 63)).cfg :=
  ⟨⟨rfl, absorbed_letters 0 (by decide) _⟩, ⟨rfl, absorbed_letters 63 (by decide) _⟩, by decide⟩

/-- One block and two. -/
theorem witness_FinalFinishesMessage :
    ((sending 0x3000 (absorbing 55)).phase = .absorb ∧ Absorbed (List.replicate 55 0x61) (sending 0x3000 (absorbing 55))) ∧
    (sending 0x3000 (absorbing 56)).phase = .absorb ∧ Absorbed (List.replicate 56 0x61) (sending 0x3000 (absorbing 56)) :=
  ⟨⟨rfl, absorbed_letters 55 (by decide) _⟩, rfl, absorbed_letters 56 (by decide) _⟩

theorem witness_TracedKeptByEveryStep :
    Traced (sending 0x3000 (absorbing 56)) ∧ (nextOf (step (sending 0x3000 (absorbing 56)))).isSome = true :=
  ⟨⟨_, absorbed_letters 56 (by decide) _⟩, by decide +kernel⟩

/-- From FAULT, with more sent after the message. -/
theorem witness_HashEndToEnd :
    let s : State := { faulted .invalidInput with
      port := [.command 0x1000, .command 0x2061, .command 0x2062, .command 0x2063, .command 0x3000, .command 0x4000, .reset] }
    (ascii "abc").length ≤ maxBytes s.cfg ∧
    s.port = (hashCommands (ascii "abc")).map (fun i => .command (encode i)) ++ [.reset] := by decide +kernel

/-- 55 and 56 letters, with the zero bytes of each: none, and 63. -/
theorem witness_PaddingFillsWholeBlocks :
    ((List.replicate 55 0x61#8).length < 2 ^ 61 ∧ (55 + 1 + 0 + 8) % 64 = 0) ∧
    ((List.replicate 56 0x61#8).length < 2 ^ 61 ∧ (56 + 1 + 63 + 8) % 64 = 0 ∧ 56 < 57 ∧ 57 + 8 < (pad (List.replicate 56 0x61)).length ∧
      119 + 8 < (pad (List.replicate 56 0x61)).length) := by decide +kernel

/-- Both ends of each range. -/
theorem witness_Utf8FormsCarryThePoint :
    ∀ c ∈ [0, 0x7F, 0x80, 0x7FF, 0x800, 0xD7FF, 0xE000, 0xFFFF, 0x10000, 0x10FFFF], ∃ l, encodePoint c = .ok l := by
  intro c h
  simp only [List.mem_cons, List.not_mem_nil, or_false] at h
  rcases h with rfl | rfl | rfl | rfl | rfl | rfl | rfl | rfl | rfl | rfl <;> exact ⟨_, rfl⟩

theorem witness_AssembledLinesDecode :
    (SourceLine.push 255).wellFormed = true ∧ (SourceLine.hash ['a', 'b', 'c']).wellFormed = true ∧ 7 < 8 ∧ 1 < 2 := by
  decide

end Sys2Proof.Tests
end

section
/-!
What every command does alike: the command pointer counts it, and the port, the parameters and the model's counter of free
values stay (spec 00_scope.md R15; 10_state.md R27, R35, R37).
-/

namespace Sys2Proof.Machine

@[simp] theorem execIllegal_cp (s : State) : (execIllegal s).cp = s.cp + 1 := by
  unfold execIllegal
  split
  · exact discardCommand_cp s
  · exact raise_cp _ s

/-- However a command ends, in phase or out of it, it is counted once and leaves these fields alone. -/
theorem exec_frame {i : Instr} {s t : State} (h : exec i s = .next t) :
    t.cp = s.cp + 1 ∧ t.port = s.port ∧ t.cfg = s.cfg ∧ t.freeCount = s.freeCount := by
  obtain ⟨-, rfl⟩ | ⟨_, -, -, -, rfl⟩ | ⟨_, -, -, -, -, rfl⟩ | ⟨_, -, -, -, -, -, _, rfl⟩ | ⟨-, -, -, _, rfl⟩ |
    ⟨-, -, rfl⟩ | ⟨_, -, rfl⟩ | ⟨_, -, rfl⟩ | ⟨-, rfl⟩ | ⟨-, rfl⟩ | ⟨-, rfl⟩ := exec_cases h <;> simp

theorem exec_cp {i : Instr} {s t : State} (h : exec i s = .next t) : t.cp = s.cp + 1 := by
  obtain ⟨hcp, -⟩ := exec_frame h
  exact hcp

theorem exec_port {i : Instr} {s t : State} (h : exec i s = .next t) : t.port = s.port := by
  obtain ⟨-, hport, -⟩ := exec_frame h
  exact hport

theorem exec_cfg {i : Instr} {s t : State} (h : exec i s = .next t) : t.cfg = s.cfg := by
  obtain ⟨-, -, hcfg, -⟩ := exec_frame h
  exact hcfg

/-- Only DIGEST and the read-backs add to the history. -/
theorem exec_out {i : Instr} {s t : State} (h : exec i s = .next t) :
    t.out = s.out ∨ i = .digest ∨ (∃ x, i = .rdv x) ∨ (∃ x, i = .rdlen x) ∨ i = .rdst := by
  obtain ⟨-, rfl⟩ | ⟨_, -, -, -, rfl⟩ | ⟨_, -, -, -, -, rfl⟩ | ⟨_, -, -, -, -, -, _, rfl⟩ | ⟨-, -, -, _, rfl⟩ |
    ⟨rfl, -, rfl⟩ | ⟨_, rfl, rfl⟩ | ⟨_, rfl, rfl⟩ | ⟨rfl, rfl⟩ | ⟨-, rfl⟩ | ⟨-, rfl⟩ := exec_cases h <;> simp

/-- Settles O38: a word is a command, whose every end is counted, or illegal, and then raised or discarded. -/
theorem everyCommandAdvancesPointer : Obligations.EveryCommandAdvancesPointer := by
  intro w s t h
  unfold runWord at h
  split at h
  · exact exec_cp h
  · injection h with h
    exact h ▸ execIllegal_cp s

end Sys2Proof.Machine
end

section
/-!
The decoder reads back what the encoder wrote (spec 30_encoding.md R63, R64).
-/

namespace Sys2Proof

theorem decode_encode_push (b : Byte) : decode (encode (.push b)) = .command (.push b) := by
  have hw := encode_push_toNat b
  have hb : b.toNat < 256 := b.isLt
  have hinit : ¬ rowInit.hits (encode (.push b)) = true := by rw [rowInit_hits, hw]; omega
  have hpush : rowPush.hits (encode (.push b)) = true := by rw [rowPush_hits, hw]; omega
  have himm : (encode (.push b)).extractLsb' 0 8 = b := by
    apply BitVec.eq_of_toNat_eq
    rw [BitVec.extractLsb'_toNat, hw, Nat.shiftRight_zero]
    omega
  rw [decode, if_neg hinit, if_pos hpush, himm]

theorem decode_encode (i : Instr) : decode (encode i) = .command i := by
  cases i with
  | push b => exact decode_encode_push b
  | rdv x => revert x; decide
  | rdlen x => revert x; decide
  | init => decide
  | final => decide
  | digest => decide
  | rdst => decide

end Sys2Proof
end

section
/-!
BLOCK on a full buffer is COMPRESS of its bytes (spec 44_compress.md R148, R149), and the chain of R150 reads only the
blocks it has got to.
-/

namespace Sys2Proof.Machine

/-- The micro-operations of R148, one after the other on a buffer whose 64 bytes have values. -/
theorem blockProc_full {s : State} {b : Block} (h : ∀ a (ha : a < 64), s.buf.read a = some b[a]) :
    blockProc s = .ok { s with v := compress s.v b, buf := [], transient := .unspecified } := by
  simp only [blockProc, loadw_spec h, bind, Except.bind]
  rw [expand_loaded]
  dsimp only
  rw [prime_expanded]
  dsimp only
  rw [cload_primed]
  dsimp only
  rw [rounds_working]
  dsimp only
  rw [foldState_working]
  rfl

/-- The bytes of block `i` are those of the sequence, where it has them. -/
theorem some_blockAt_getElem {p : List Byte} {i a : Nat} (ha : a < 64) (hp : 64 * i + a < p.length) :
    some (blockAt p i)[a] = p[64 * i + a]? := by
  simp [blockAt, List.getElem?_eq_getElem hp]

/-- BLOCK on a buffer that holds block `i` of a byte sequence. -/
theorem blockProc_of_reads {s : State} {p : List Byte} {i : Nat} (hp : 64 * (i + 1) ≤ p.length)
    (h : ∀ a, a < 64 → s.buf.read a = p[64 * i + a]?) :
    blockProc s = .ok { s with v := compress s.v (blockAt p i), buf := [], transient := .unspecified } :=
  blockProc_full fun a ha => (h a ha).trans (some_blockAt_getElem ha (by omega)).symm

theorem blockAt_append {p q : List Byte} {i : Nat} (h : 64 * (i + 1) ≤ p.length) :
    blockAt (p ++ q) i = blockAt p i := by
  ext a ha
  have hlt : 64 * i + a < p.length := by omega
  simp [blockAt, List.getElem?_append_left hlt]

/-- What follows the first `n` blocks does not change the State after them. -/
theorem chain_append (v : Words8) (p q : List Byte) {n : Nat} (h : 64 * n ≤ p.length) :
    chain v (p ++ q) n = chain v p n := by
  induction n with
  | zero => rfl
  | succ n ih => rw [chain, chain, ih (by omega), blockAt_append h]

end Sys2Proof.Machine
end

section
/-!
The padded sequence by index (spec 42_padder.md R117 to R121).
-/

namespace Sys2Proof.Machine

@[simp] theorem length_beBytes (n x : Nat) : (beBytes n x).length = n := by simp [beBytes]

theorem beBytes_getElem? {n j : Nat} (x : Nat) (hj : j < n) :
    (beBytes n x)[j]? = some (BitVec.ofNat 8 (x / 2 ^ (8 * (n - 1 - j)))) := by
  simp [beBytes, hj]

theorem length_pad (m : List Byte) : (pad m).length = m.length + 1 + zeroCount m.length + 8 := by
  simp [pad]; omega

/-- A message whose last part leaves room for 0x80 and the length field takes one more block (R118). -/
theorem length_pad_room {m : List Byte} (h : m.length % 64 ≤ 55) : (pad m).length = 64 * (m.length / 64 + 1) := by
  rw [length_pad, zeroCount]; omega

/-- Otherwise it takes two. -/
theorem length_pad_no_room {m : List Byte} (h : 56 ≤ m.length % 64) : (pad m).length = 64 * (m.length / 64 + 2) := by
  rw [length_pad, zeroCount]; omega

theorem pad_getElem?_message {m : List Byte} {i : Nat} (h : i < m.length) : (pad m)[i]? = m[i]? := by
  simp [pad, List.getElem?_append_left, h]

theorem pad_getElem?_marker (m : List Byte) : (pad m)[m.length]? = some 0x80 := by
  simp [pad]

theorem pad_getElem?_zero {m : List Byte} {i : Nat} (h : m.length < i) (hi : i + 8 < (pad m).length) :
    (pad m)[i]? = some 0 := by
  rw [length_pad] at hi
  rw [pad, List.getElem?_append_left (by simp; omega), List.getElem?_append_right (by simp; omega),
    List.getElem?_replicate, if_pos (by simp; omega)]
  rfl

/-- Byte `j` of the length field. -/
theorem pad_getElem?_length {m : List Byte} {i j : Nat} (hj : j < 8) (hi : i + 8 = (pad m).length + j) :
    (pad m)[i]? = some (BitVec.ofNat 8 (8 * m.length / 2 ^ (8 * (7 - j)))) := by
  rw [length_pad] at hi
  have hidx : i - (m ++ [0x80#8] ++ List.replicate (zeroCount m.length) 0#8).length = j := by simp; omega
  rw [pad, List.getElem?_append_right (by simp; omega), hidx, beBytes_getElem? _ hj]

end Sys2Proof.Machine
end

section
/-!
PUSH and FINAL on a state that has absorbed a message (spec 10_state.md R36; 42_padder.md R113 to R116, R120).
-/

namespace Sys2Proof.Machine

/-- The longest message fills LEN to its limit (00_scope.md R9, R114). -/
theorem eight_mul_maxBytes (cfg : Config) : 8 * maxBytes cfg = 2 ^ cfg.lenw.bits - 8 := by
  cases h : cfg.lenw <;> simp [maxBytes, LenWidth.bits, h]

theorem Absorbed.len_le_limit {m : List Byte} {s : State} (h : Absorbed m s) :
    s.len.toNat ≤ 2 ^ s.cfg.lenw.bits - 8 := by
  rw [h.len, ← eight_mul_maxBytes]
  exact Nat.mul_le_mul_left 8 h.size

theorem Absorbed.len_ne_limit {m : List Byte} {s : State} (h : Absorbed m s) (hm : m.length < maxBytes s.cfg) :
    s.len.toNat ≠ 2 ^ s.cfg.lenw.bits - 8 := by
  rw [h.len, ← eight_mul_maxBytes]
  omega

/-- LEN after it has counted one byte more. -/
theorem Absorbed.len_add {m : List Byte} {s : State} (h : Absorbed m s) (hm : m.length < maxBytes s.cfg) :
    ((s.len + 8) &&& lenMask s.cfg).toNat = 8 * (m.length + 1) := by
  have hlen := h.len
  rw [len_add_toNat (by omega) h.len_le_limit (h.len_ne_limit hm), hlen]
  omega

/-- INIT opens the empty message (R112). -/
theorem absorbed_nil_init (s : State) : Absorbed [] (advance (initBody s)) where
  size := Nat.zero_le _
  len := rfl
  fill := rfl
  state := rfl
  bytes := fun _ => rfl

/-- The buffer with the pushed byte at FILL holds the last part of the longer message. -/
theorem Absorbed.read_write {m : List Byte} {s : State} (h : Absorbed m s) (b : Byte) (a : Nat) :
    (s.buf.write s.fill.toNat b).read a = (m ++ [b])[64 * (m.length / 64) + a]? := by
  rw [Memory.read_write, h.fill]
  by_cases ha : a = m.length % 64
  · have hidx : 64 * (m.length / 64) + a = m.length := by omega
    rw [if_pos ha, hidx, List.getElem?_concat_length]
  · rw [if_neg ha, h.bytes, List.getElem?_append]
    split
    · rfl
    · rw [List.getElem?_eq_none (by omega), List.getElem?_eq_none (by simp; omega)]

/-- PUSH in ABSORB below the limit is APPEND after LEN has counted the byte (R114). -/
theorem exec_push_below {s : State} (b : Byte) (hp : s.phase = .absorb)
    (hlen : s.len.toNat ≠ 2 ^ s.cfg.lenw.bits - 8) :
    exec (.push b) s = settle ((appendByte b (writeLen s (s.len + 8))).map advance) := by
  show whenAdmitted _ s (pushBody b s) = _
  rw [whenAdmitted_execute _ (by simp [hp, admission]), pushBody_below b hlen]

/-- A PUSH that leaves room in the buffer (R113). -/
theorem exec_push_absorbed_room {s : State} {m : List Byte} (b : Byte) (hp : s.phase = .absorb) (h : Absorbed m s)
    (hm : m.length < maxBytes s.cfg) (hf : s.fill ≠ 63) :
    ∃ t, exec (.push b) s = .next t ∧ t.phase = .absorb ∧ t.cause = s.cause ∧ Absorbed (m ++ [b]) t := by
  have hfill := h.fill
  have hroom : m.length % 64 ≠ 63 := fun e => hf ((fill_eq_63_iff _).mpr (hfill.trans e))
  have hdiv : (m.length + 1) / 64 = m.length / 64 := by omega
  refine ⟨advance { writeLen s (s.len + 8) with buf := s.buf.write s.fill.toNat b, fill := s.fill + 1 }, ?_, hp, rfl, ?_⟩
  · rw [exec_push_below b hp (h.len_ne_limit hm), appendByte_room b (s := writeLen s (s.len + 8)) hf]
    rfl
  · exact
    { size := by simpa using hm
      len := by simpa using h.len_add hm
      fill := by
        have e1 : (1 : BitVec 6).toNat = 1 := rfl
        simp only [advance_fill, BitVec.toNat_add, e1, hfill, List.length_append, List.length_singleton]
        omega
      state := by
        rw [List.length_append, List.length_singleton, hdiv, chain_append _ _ _ (by omega)]
        exact h.state
      bytes := fun a => by
        rw [List.length_append, List.length_singleton, hdiv]
        exact h.read_write b a }

/-- A PUSH that fills the buffer folds one more block (R113, R148). -/
theorem exec_push_absorbed_last {s : State} {m : List Byte} (b : Byte) (hp : s.phase = .absorb) (h : Absorbed m s)
    (hm : m.length < maxBytes s.cfg) (hf : s.fill = 63) :
    ∃ t, exec (.push b) s = .next t ∧ t.phase = .absorb ∧ t.cause = s.cause ∧ Absorbed (m ++ [b]) t := by
  have hfill : s.fill.toNat = 63 := (fill_eq_63_iff _).mp hf
  have hmod : m.length % 64 = 63 := h.fill.symm.trans hfill
  have hdiv : (m.length + 1) / 64 = m.length / 64 + 1 := by omega
  refine ⟨advance { writeLen s (s.len + 8) with
    v := compress s.v (blockAt (m ++ [b]) (m.length / 64)), fill := 0, buf := [], transient := .unspecified }, ?_, hp, rfl, ?_⟩
  · rw [exec_push_below b hp (h.len_ne_limit hm), appendByte_last b (s := writeLen s (s.len + 8)) hf,
      blockProc_of_reads (p := m ++ [b]) (i := m.length / 64) (by simp; omega) fun a _ => ?_]
    · rfl
    · exact hfill ▸ h.read_write b a
  · exact
    { size := by simpa using hm
      len := by simpa using h.len_add hm
      fill := by
        show 0 = _
        simp only [List.length_append, List.length_singleton]
        omega
      state := by
        rw [List.length_append, List.length_singleton, hdiv, chain, chain_append _ _ _ (by omega)]
        exact congrArg (compress · _) h.state
      bytes := fun a => (List.getElem?_eq_none (by simp; omega)).symm }

/-- A PUSH below the limit extends the message by its byte (R36 (c), R114). -/
theorem exec_push_absorbed {s : State} {m : List Byte} (b : Byte) (hp : s.phase = .absorb) (h : Absorbed m s)
    (hm : m.length < maxBytes s.cfg) :
    ∃ t, exec (.push b) s = .next t ∧ t.phase = .absorb ∧ t.cause = s.cause ∧ Absorbed (m ++ [b]) t := by
  by_cases hf : s.fill = 63
  · exact exec_push_absorbed_last b hp h hm hf
  · exact exec_push_absorbed_room b hp h hm hf

/-- What PADFIN writes below the length field, the message's last part, 0x80 and zero bytes, is the padded sequence's. -/
theorem Absorbed.padded_read {m : List Byte} {s : State} (h : Absorbed m s) {x : Nat}
    (hx : 64 * (m.length / 64) + x + 8 < (pad m).length) :
    (if x < s.fill.toNat then s.buf.read x else if x = s.fill.toNat then some 0x80 else some 0) =
      (pad m)[64 * (m.length / 64) + x]? := by
  rw [h.fill]
  by_cases hlt : x < m.length % 64
  · rw [if_pos hlt, h.bytes, pad_getElem?_message (by omega)]
  · rw [if_neg hlt]
    by_cases heq : x = m.length % 64
    · have hidx : 64 * (m.length / 64) + x = m.length := by omega
      rw [if_pos heq, hidx, pad_getElem?_marker]
    · rw [if_neg heq, pad_getElem?_zero (by omega) hx]

/-- The length field that PADFIN writes at addresses 56 to 63 is the last eight bytes of the padded sequence. -/
theorem Absorbed.length_byte {m : List Byte} {s : State} (h : Absorbed m s) {i x : Nat} (h56 : 56 ≤ x) (hx : x < 64)
    (hi : (pad m).length = 64 * (i + 1)) :
    some (s.len.extractLsb' (8 * (7 - (x - 56))) 8) = (pad m)[64 * i + x]? := by
  rw [pad_getElem?_length (j := x - 56) (by omega) (by omega), BitVec.extractLsb', Nat.shiftRight_eq_div_pow, h.len]

/-- The complete blocks of a message are the first blocks of its padded sequence (R120). -/
theorem chain_pad (v : Words8) {m : List Byte} {n : Nat} (h : 64 * n ≤ m.length) :
    chain v (pad m) n = chain v m n := by
  rw [pad, List.append_assoc, List.append_assoc, chain_append v m _ h]

/-- PADFIN in one block (R118, R120). -/
theorem padfin_absorbed_room {m : List Byte} {s : State} (h : Absorbed m s) (hf : s.fill.toNat ≤ 55) :
    padfin s = .ok { s with v := finalState s.cfg.iv m, fill := 0, buf := [], transient := .unspecified } := by
  have hlen := length_pad_room (m := m) (h.fill ▸ hf)
  obtain ⟨buf, hpad, hread⟩ := padfin_room s hf
  have hblock (x : Nat) (hx : x < 64) : buf.read x = (pad m)[64 * (m.length / 64) + x]? := by
    rw [hread x hx, lastBlockByte]
    split
    · exact h.length_byte ‹_› hx hlen
    · exact h.padded_read (by omega)
  have hfinal : compress s.v (blockAt (pad m) (m.length / 64)) = finalState s.cfg.iv m := by
    have hn : (pad m).length / 64 = m.length / 64 + 1 := by omega
    rw [finalState, hn, chain, h.state, chain_pad _ (by omega)]
  rw [hpad, blockProc_of_reads (by omega) hblock, ← hfinal]
  rfl

/-- PADFIN in two blocks (R118, R120). -/
theorem padfin_absorbed_no_room {m : List Byte} {s : State} (h : Absorbed m s) (hf : 56 ≤ s.fill.toNat) :
    padfin s = .ok { s with v := finalState s.cfg.iv m, fill := 0, buf := [], transient := .unspecified } := by
  have hlen := length_pad_no_room (m := m) (h.fill ▸ hf)
  obtain ⟨buf, hread, -, hpad⟩ := padfin_no_room s hf
  have hblock (x : Nat) (hx : x < 64) : buf.read x = (pad m)[64 * (m.length / 64) + x]? := by
    rw [hread x hx]
    exact h.padded_read (by omega)
  obtain ⟨buf', hpad, hread'⟩ := hpad _ (blockProc_of_reads (by omega) hblock)
  have hblock' (x : Nat) (hx : x < 64) : buf'.read x = (pad m)[64 * (m.length / 64 + 1) + x]? := by
    rw [hread' x hx]
    split
    · exact h.length_byte ‹_› hx hlen
    · exact (pad_getElem?_zero (by have := h.fill; omega) (by omega)).symm
  have hfinal : compress (compress s.v (blockAt (pad m) (m.length / 64))) (blockAt (pad m) (m.length / 64 + 1)) =
      finalState s.cfg.iv m := by
    have hn : (pad m).length / 64 = m.length / 64 + 2 := by omega
    rw [finalState, hn, chain, chain, h.state, chain_pad _ (by omega)]
  rw [hpad, blockProc_of_reads (by omega) hblock', ← hfinal]
  rfl

theorem padfin_absorbed {m : List Byte} {s : State} (h : Absorbed m s) :
    padfin s = .ok { s with v := finalState s.cfg.iv m, fill := 0, buf := [], transient := .unspecified } := by
  by_cases hf : s.fill.toNat ≤ 55
  · exact padfin_absorbed_room h hf
  · exact padfin_absorbed_no_room h (by omega)

/-- FINAL leaves the final State of the message (R116). -/
theorem exec_final_absorbed {s : State} {m : List Byte} (hp : s.phase = .absorb) (h : Absorbed m s) :
    ∃ t, exec .final s = .next t ∧ t.phase = .done ∧ t.cause = s.cause ∧ Finished m t := by
  refine ⟨advance { s with
    v := finalState s.cfg.iv m, fill := 0, buf := [], transient := .unspecified, phase := .done }, ?_, rfl, rfl, ?_⟩
  · show whenAdmitted _ s (finalBody s) = _
    rw [whenAdmitted_execute _ (by simp [hp, admission]), finalBody, padfin_absorbed h]
    rfl
  · exact { size := h.size, len := h.len, fill := rfl, state := rfl, bytes := fun _ => rfl }

/-- DIGEST in DONE emits the characters of `V` and only counts itself besides (45_serializer.md R160). -/
theorem exec_digest_done {s : State} (hp : s.phase = .done) :
    exec .digest s = .next (advance { s with out := s.out ++ (hexStr s.v).map .hex }) := by
  show whenAdmitted _ s _ = _
  rw [whenAdmitted_execute _ (by simp [hp, admission]), foldl_emitHex, settle_ok]

end Sys2Proof.Machine
end

section
/-!
The command sequence of R19 (spec 00_scope.md): along it the engine has absorbed the message up to the byte last pushed, and
nothing appears in the history before DIGEST.
-/

namespace Sys2Proof.Machine

/-- `n` steps lead from `s` to `t`, and leave `rest` on the port, the parameters and the history as they were. -/
structure RunsQuietly (n : Nat) (s : State) (rest : List HostEvent) (t : State) : Prop where
  run : RunsTo n s t
  port : t.port = rest
  cfg : t.cfg = s.cfg
  out : t.out = s.out

theorem runsQuietly_zero (s : State) : RunsQuietly 0 s s.port s := ⟨runsTo_zero s, rfl, rfl, rfl⟩

/-- A run goes on with the command on the port. -/
theorem runsTo_command {n : Nat} {s t u : State} {i : Instr} {rest : List HostEvent} (h : RunsTo n s t)
    (hp : t.port = .command (encode i) :: rest) (hi : exec i { t with port := rest } = .next u) : RunsTo (n + 1) s u :=
  runsTo_trans h (runsTo_succ ((step_command hp (decode_encode i)).trans hi) (runsTo_zero u))

/-- A quiet run goes on with a command that outputs nothing. -/
theorem RunsQuietly.command {n : Nat} {s t u : State} {i : Instr} {rest : List HostEvent}
    (h : RunsQuietly n s (.command (encode i) :: rest) t) (hi : exec i { t with port := rest } = .next u)
    (hout : u.out = t.out) : RunsQuietly (n + 1) s rest u where
  run := runsTo_command h.run h.port hi
  port := exec_port hi
  cfg := (exec_cfg hi).trans h.cfg
  out := hout.trans h.out

/-- What has been absorbed does not depend on the port. -/
theorem Absorbed.withPort {m : List Byte} {s : State} (h : Absorbed m s) (p : List HostEvent) :
    Absorbed m { s with port := p } := ⟨h.size, h.len, h.fill, h.state, h.bytes⟩

/-- The words of R19 from INIT's successor on, when the bytes `m` are still to be pushed, and what the host sent after
them. -/
def remainingWords (m : List Byte) (rest : List HostEvent) : List HostEvent :=
  m.map (fun b => .command (encode (.push b))) ++ .command (encode .final) :: .command (encode .digest) :: rest

theorem hashCommands_words (m : List Byte) (rest : List HostEvent) :
    (hashCommands m).map (fun i => .command (encode i)) ++ rest =
      .command (encode .init) :: remainingWords m rest := by
  simp [hashCommands, remainingWords, Function.comp_def]

/-- After INIT and `k` PUSHes the engine has absorbed the first `k` bytes. -/
theorem hashCommands_absorb {s : State} {m : List Byte} {rest : List HostEvent} (hm : m.length ≤ maxBytes s.cfg)
    (hs : s.port = .command (encode .init) :: remainingWords m rest) (k : Nat) (hk : k ≤ m.length) :
    ∃ t, RunsQuietly (k + 1) s (remainingWords (m.drop k) rest) t ∧ t.phase = .absorb ∧ Absorbed (m.take k) t := by
  induction k with
  | zero =>
    have hzero : RunsQuietly 0 s (.command (encode .init) :: remainingWords m rest) s := hs ▸ runsQuietly_zero s
    exact ⟨_, hzero.command rfl rfl, rfl, absorbed_nil_init _⟩
  | succ k ih =>
    obtain ⟨t, hrun, hphase, habs⟩ := ih (by omega)
    rw [List.drop_eq_getElem_cons hk] at hrun
    have hroom : (m.take k).length < maxBytes t.cfg := by rw [hrun.cfg, List.length_take]; omega
    obtain ⟨u, hu, hphase', -, habs'⟩ :=
      exec_push_absorbed m[k] (s := { t with port := remainingWords (m.drop (k + 1)) rest }) hphase (habs.withPort _) hroom
    refine ⟨u, hrun.command hu (by simpa using exec_out hu), hphase', ?_⟩
    rwa [List.take_concat_get'] at habs'

/-- After FINAL the engine holds the final State of the message, with DIGEST still to come. -/
theorem hashCommands_finish {s : State} {m : List Byte} {rest : List HostEvent} (hm : m.length ≤ maxBytes s.cfg)
    (hs : s.port = .command (encode .init) :: remainingWords m rest) :
    ∃ t, RunsQuietly (m.length + 2) s (.command (encode .digest) :: rest) t ∧ t.phase = .done ∧ Finished m t := by
  obtain ⟨t, hrun, hphase, habs⟩ := hashCommands_absorb hm hs m.length (Nat.le_refl _)
  rw [List.take_length] at habs
  rw [List.drop_length] at hrun
  obtain ⟨u, hu, hphase', -, hfin⟩ := exec_final_absorbed
    (s := { t with port := .command (encode .digest) :: rest }) hphase (habs.withPort _)
  exact ⟨u, hrun.command hu (by simpa using exec_out hu), hphase', hfin⟩

/-- DIGEST then emits the hash. -/
theorem hashCommands_digest {s : State} {m : List Byte} {rest : List HostEvent} (hm : m.length ≤ maxBytes s.cfg)
    (hs : s.port = .command (encode .init) :: remainingWords m rest) :
    ∃ t, RunsTo (m.length + 3) s t ∧ t.out = s.out ++ (hexStr (finalState s.cfg.iv m)).map .hex ∧ t.port = rest ∧
      t.phase = .done := by
  obtain ⟨t, hrun, hphase, hfin⟩ := hashCommands_finish hm hs
  refine ⟨_, runsTo_command hrun.run hrun.port (exec_digest_done hphase), ?_, rfl, hphase⟩
  simp only [advance_out, hrun.out, hfin.state, hrun.cfg]

/-- Settles O53: INIT opens the message whatever came before, by induction over the bytes each PUSH absorbs one, FINAL
finishes it and DIGEST emits it; the states on the way are in ABSORB, then in DONE. -/
theorem hashEndToEnd : Obligations.HashEndToEnd := by
  intro s m rest hm hs
  rw [hashCommands_words] at hs
  obtain ⟨t, hrun, hout, hport, hdone⟩ := hashCommands_digest hm hs
  refine ⟨fun k hpos hk => ?_, t, _, hrun, if_pos hm, hout, hport, hdone⟩
  obtain hle | rfl | rfl : k - 1 ≤ m.length ∨ k = m.length + 2 ∨ k = m.length + 3 := by omega
  · obtain ⟨u, hu, hphase, -⟩ := hashCommands_absorb hm hs (k - 1) hle
    rw [Nat.sub_add_cancel hpos] at hu
    exact ⟨u, hu.run, by simp [hphase]⟩
  · obtain ⟨u, hu, hphase, -⟩ := hashCommands_finish hm hs
    exact ⟨u, hu.run, by simp [hphase]⟩
  · exact ⟨t, hrun, by simp [hdone]⟩

end Sys2Proof.Machine
end

section
/-!
BLOCK on any buffer (spec 44_compress.md R148; 10_state.md R24, R34): it is COMPRESS of the 64 bytes if all have values, and
stops at the first that has none. What the bytes above FILL and the transient store held before does not matter (R32).
-/

namespace Sys2Proof.Machine

theorem memRead_of_values {s : State} {addr n : Nat} (hn : addr + n ≤ 64)
    (h : ∀ x, x < addr + n → (s.buf.read x).isSome = true) : ∃ v, memRead s addr n = .ok v := by
  induction n with
  | zero => exact ⟨_, rfl⟩
  | succ n ih =>
    obtain ⟨high, hhigh⟩ := ih (by omega) fun x hx => h x (by omega)
    obtain ⟨low, hlow⟩ := Option.isSome_iff_exists.mp (h (addr + n) (by omega))
    exact ⟨high ++ low, by simp only [memRead, hhigh, readByte_of_value (by omega) hlow, bind, Except.bind]⟩

/-- MemRead goes from the lowest address up (00_scope.md R12). -/
theorem memRead_of_none {s : State} {addr n a : Nat} (hn : addr + n ≤ 64) (ha : addr ≤ a ∧ a < addr + n)
    (h : ∀ x, x < a → (s.buf.read x).isSome = true) (hnone : s.buf.read a = none) :
    memRead s addr n = .error (.valuelessByte a) := by
  induction n with
  | zero => omega
  | succ n ih =>
    by_cases hlast : a = addr + n
    · subst hlast
      obtain ⟨high, hhigh⟩ := memRead_of_values (n := n) (by omega) h
      simp only [memRead, hhigh, readByte_of_none (by omega) hnone, bind, Except.bind]
    · simp only [memRead, ih (by omega) (by omega), bind, Except.bind]

theorem loadWords_of_values {s : State} {n : Nat} (hn : n ≤ 16)
    (h : ∀ x, x < 4 * n → (s.buf.read x).isSome = true) : ∃ w, loadWords s n = .ok w := by
  induction n with
  | zero => exact ⟨_, rfl⟩
  | succ n ih =>
    obtain ⟨before, hbefore⟩ := ih (by omega) fun x hx => h x (by omega)
    obtain ⟨word, hword⟩ := memRead_of_values (addr := 4 * n) (n := 4) (by omega) h
    exact ⟨before.push word, by simp only [loadWords, hbefore, hword, bind, Except.bind]⟩

/-- LOADW reads the words in increasing order (43_schedule.md R130). -/
theorem loadWords_of_none {s : State} {n a : Nat} (hn : n ≤ 16) (ha : a < 4 * n)
    (h : ∀ x, x < a → (s.buf.read x).isSome = true) (hnone : s.buf.read a = none) :
    loadWords s n = .error (.valuelessByte a) := by
  induction n with
  | zero => omega
  | succ n ih =>
    by_cases hlast : 4 * n ≤ a
    · obtain ⟨before, hbefore⟩ := loadWords_of_values (n := n) (by omega) fun x hx => h x (by omega)
      simp only [loadWords, hbefore, memRead_of_none (by omega) ⟨hlast, ha⟩ h hnone, bind, Except.bind]
    · simp only [loadWords, ih (by omega) (by omega), bind, Except.bind]

theorem blockProc_of_none {s : State} {a : Nat} (ha : a < 64) (h : ∀ x, x < a → (s.buf.read x).isSome = true)
    (hnone : s.buf.read a = none) : blockProc s = .error (.valuelessByte a) := by
  simp only [blockProc, loadw, loadWords_of_none (n := 16) (by omega) ha h hnone, bind, Except.bind]

/-- Settles O18: LOADW, the first micro-operation of BLOCK, reads the bytes in address order. -/
theorem blockStopsAtValuelessByte : Obligations.BlockStopsAtValuelessByte :=
  fun _ _ ha h hnone => blockProc_of_none ha h hnone

/-- A buffer is a whole block, or has a first byte without value. -/
theorem Memory.block_or_first_valueless (m : Memory) :
    (∃ b : Block, ∀ a (h : a < 64), m.read a = some b[a]) ∨
    ∃ a, a < 64 ∧ (∀ x, x < a → (m.read x).isSome = true) ∧ m.read a = none := by
  by_cases hall : ∀ a, a < 64 → (m.read a).isSome = true
  · exact .inl ⟨Vector.ofFn fun a => (m.read a.val).get (hall a.val a.isLt), fun a ha => by simp⟩
  · have hex : ∃ a, a < 64 ∧ m.read a = none := by simpa using hall
    obtain ⟨hlt, hnone⟩ := Nat.find_spec hex
    refine .inr ⟨Nat.find hex, hlt, fun x hx => ?_, hnone⟩
    rw [Option.isSome_iff_ne_none]
    exact fun hxnone => Nat.find_min hex hx ⟨by omega, hxnone⟩

/-- A BLOCK that goes through has compressed some block. -/
theorem blockProc_ok_compress {s t : State} (h : blockProc s = .ok t) : ∃ B, t.v = compress s.v B := by
  obtain ⟨b, hb⟩ | ⟨a, ha, hbelow, hnone⟩ := s.buf.block_or_first_valueless
  · rw [blockProc_full hb] at h
    injection h with h
    exact ⟨b, h ▸ rfl⟩
  · rw [blockProc_of_none ha hbelow hnone] at h
    exact nomatch h

theorem blockProc_of_values {s : State} (h : ∀ a, a < 64 → (s.buf.read a).isSome = true) :
    ∃ t, blockProc s = .ok t := by
  obtain ⟨b, hb⟩ | ⟨a, ha, -, hnone⟩ := s.buf.block_or_first_valueless
  · exact ⟨_, blockProc_full hb⟩
  · exact absurd (h a ha) (by simp [hnone])

/-- Another buffer and another transient store in a state: what R32 calls hidden, where the buffers agree below FILL. -/
def State.withHidden (s : State) (m : Memory) (x : Transient) : State := { s with buf := m, transient := x }

/-- BLOCK reads the 64 bytes and writes the transient store before it reads it. -/
theorem blockProc_withHidden {s : State} {m : Memory} (x : Transient)
    (h : ∀ a, a < 64 → m.read a = s.buf.read a) : blockProc (s.withHidden m x) = blockProc s := by
  obtain ⟨b, hb⟩ | ⟨a, ha, hbelow, hnone⟩ := s.buf.block_or_first_valueless
  · have hb' (a : Nat) (ha : a < 64) : m.read a = some b[a] := (h a ha).trans (hb a ha)
    rw [blockProc_full hb, blockProc_full (s := s.withHidden m x) hb']
    rfl
  · have hbelow' (y : Nat) (hy : y < a) : (m.read y).isSome = true := by
      rw [h y (by omega)]
      exact hbelow y hy
    rw [blockProc_of_none ha hbelow hnone,
      blockProc_of_none (s := s.withHidden m x) ha hbelow' ((h a ha).trans hnone)]

end Sys2Proof.Machine
end

section
/-!
PADFIN on any buffer (spec 42_padder.md R115): it reads the bytes below FILL only, goes through if they have values, and
compresses one block or two.
-/

namespace Sys2Proof.Machine

/-- PADFIN writes every byte at and above FILL before BLOCK reads it. -/
theorem padfin_withHidden {s : State} {m : Memory} (x : Transient)
    (h : ∀ a, a < s.fill.toNat → m.read a = s.buf.read a) : padfin (s.withHidden m x) = padfin s := by
  by_cases hroom : s.fill.toNat ≤ 55
  · obtain ⟨n, hpad, hread⟩ := padfin_room s hroom
    obtain ⟨n', hpad', hread'⟩ := padfin_room (s.withHidden m x) hroom
    have hblock : blockProc (State.withHidden { s with buf := n } n' x) = blockProc { s with buf := n } := by
      refine blockProc_withHidden x fun a ha => ?_
      rw [hread' a ha, hread a ha]
      unfold lastBlockByte State.withHidden
      split
      · rfl
      · exact ite_congr rfl (h a) fun _ => rfl
    rw [hpad, hpad', ← hblock]
    rfl
  · obtain ⟨n, hread, herror, hok⟩ := padfin_no_room s (by omega)
    obtain ⟨n', hread', herror', hok'⟩ := padfin_no_room (s.withHidden m x) (by show 56 ≤ s.fill.toNat; omega)
    have hblock : blockProc (State.withHidden { s with buf := n } n' x) = blockProc { s with buf := n } := by
      refine blockProc_withHidden x fun a ha => ?_
      rw [hread' a ha, hread a ha]
      exact ite_congr rfl (h a) fun _ => rfl
    cases hfirst : blockProc { s with buf := n } with
    | error f => rw [herror f hfirst, herror' f (hblock.trans hfirst)]
    | ok t =>
      obtain ⟨k, hpad, hlast⟩ := hok t hfirst
      obtain ⟨k', hpad', hlast'⟩ := hok' t (hblock.trans hfirst)
      have hsecond : blockProc (State.withHidden { t with buf := k } k' t.transient) = blockProc { t with buf := k } :=
        blockProc_withHidden _ fun a ha => (hlast' a ha).trans (hlast a ha).symm
      rw [hpad, hpad', ← hsecond]
      rfl

theorem padfin_of_values {s : State} (h : ∀ a, a < s.fill.toNat → (s.buf.read a).isSome = true) :
    ∃ t, padfin s = .ok t := by
  by_cases hroom : s.fill.toNat ≤ 55
  · obtain ⟨n, hpad, hread⟩ := padfin_room s hroom
    obtain ⟨t, ht⟩ := blockProc_of_values (s := { s with buf := n }) fun a ha => by
      show (n.read a).isSome = true
      rw [hread a ha, lastBlockByte]
      split_ifs with h56 hbelow
      · rfl
      · exact h a hbelow
      all_goals rfl
    exact ⟨_, by rw [hpad, ht]; rfl⟩
  · obtain ⟨n, hread, -, hok⟩ := padfin_no_room s (by omega)
    obtain ⟨t, ht⟩ := blockProc_of_values (s := { s with buf := n }) fun a ha => by
      show (n.read a).isSome = true
      rw [hread a ha]
      split_ifs with hbelow
      · exact h a hbelow
      all_goals rfl
    obtain ⟨k, hpad, hlast⟩ := hok t ht
    obtain ⟨u, hu⟩ := blockProc_of_values (s := { t with buf := k }) fun a ha => by
      show (k.read a).isSome = true
      rw [hlast a ha]
      split <;> rfl
    exact ⟨_, by rw [hpad, hu]; rfl⟩

theorem map_ok {α β : Type} {x : Except Fault α} {f : α → β} {r : β} (h : x.map f = .ok r) :
    ∃ a, x = .ok a ∧ f a = r := by
  cases x with
  | ok a => injection h with h; exact ⟨a, rfl, h⟩
  | error e => exact nomatch h

theorem padfin_ok_compress {s t : State} (h : padfin s = .ok t) :
    ∃ B, t.v = compress s.v B ∨ ∃ C, t.v = compress (compress s.v B) C := by
  by_cases hroom : s.fill.toNat ≤ 55
  · obtain ⟨n, hpad, -⟩ := padfin_room s hroom
    obtain ⟨u, hu, rfl⟩ := map_ok (hpad.symm.trans h)
    obtain ⟨B, hB⟩ := blockProc_ok_compress hu
    exact ⟨B, .inl hB⟩
  · obtain ⟨n, -, herror, hok⟩ := padfin_no_room s (by omega)
    cases hfirst : blockProc { s with buf := n } with
    | error f => exact nomatch (herror f hfirst).symm.trans h
    | ok u =>
      obtain ⟨k, hpad, -⟩ := hok u hfirst
      obtain ⟨r, hr, rfl⟩ := map_ok (hpad.symm.trans h)
      obtain ⟨B, hB⟩ := blockProc_ok_compress hfirst
      obtain ⟨C, hC⟩ := blockProc_ok_compress hr
      exact ⟨B, .inr ⟨C, hC.trans (congrArg (compress · C) hB)⟩⟩

end Sys2Proof.Machine
end

section
/-!
Hidden state is unobservable (spec 10_state.md R32; 70_reset_and_hazards.md R213): every command, and so every step, goes
the same way whatever BUF holds at and above FILL and whatever the transient store holds.
-/

namespace Sys2Proof.Machine

theorem hiddenOnly_iff {s s' : State} :
    HiddenOnly s s' ↔ ∃ m x, s' = s.withHidden m x ∧ ∀ a, a < s.fill.toNat → m.read a = s.buf.read a := by
  constructor
  · intro ⟨hvisible, hbytes⟩
    exact ⟨s'.buf, s'.transient, by rw [← hvisible]; rfl, hbytes⟩
  · rintro ⟨m, x, rfl, hbytes⟩
    exact ⟨rfl, hbytes⟩

theorem HiddenOnly.refl (s : State) : HiddenOnly s s := ⟨rfl, fun _ _ => rfl⟩

theorem HiddenOnly.symm {s s' : State} (h : HiddenOnly s s') : HiddenOnly s' s := by
  obtain ⟨m, x, rfl, hbytes⟩ := hiddenOnly_iff.mp h
  exact ⟨rfl, fun a ha => (hbytes a ha).symm⟩

theorem HiddenOnly.out_eq {s s' : State} (h : HiddenOnly s s') : s'.out = s.out := by
  obtain ⟨m, x, rfl, -⟩ := hiddenOnly_iff.mp h
  rfl

theorem HiddenOnly.port_eq {s s' : State} (h : HiddenOnly s s') : s'.port = s.port := by
  obtain ⟨m, x, rfl, -⟩ := hiddenOnly_iff.mp h
  rfl

theorem HiddenOnly.withPort {s s' : State} (h : HiddenOnly s s') (p : List HostEvent) :
    HiddenOnly { s with port := p } { s' with port := p } := by
  obtain ⟨m, x, rfl, hbytes⟩ := hiddenOnly_iff.mp h
  exact ⟨rfl, hbytes⟩

theorem HiddenOnly.raise {s s' : State} (c : Cause) (h : HiddenOnly s s') : HiddenOnly (raise c s) (raise c s') := by
  obtain ⟨m, x, rfl, hbytes⟩ := hiddenOnly_iff.mp h
  exact ⟨rfl, hbytes⟩

theorem HiddenOnly.advance {s s' : State} (h : HiddenOnly s s') : HiddenOnly (advance s) (advance s') := by
  obtain ⟨m, x, rfl, hbytes⟩ := hiddenOnly_iff.mp h
  exact ⟨rfl, hbytes⟩

/-- The command admitted or not in one state is so in the other; only its body is left to compare. -/
theorem whenAdmitted_hidden {i : Instr} {s s' t : State} {body body' : Except Fault State} (h : HiddenOnly s s')
    (hbody : admission i s.phase = .execute → body = .ok t → ∃ t', body' = .ok t' ∧ HiddenOnly t t')
    (hs : whenAdmitted i s body = .next t) : ∃ t', whenAdmitted i s' body' = .next t' ∧ HiddenOnly t t' := by
  have hphase : s'.phase = s.phase := by
    obtain ⟨m, x, rfl, -⟩ := hiddenOnly_iff.mp h
    rfl
  obtain ⟨hadm, hok⟩ | ⟨hadm, rfl⟩ | ⟨hadm, rfl⟩ := whenAdmitted_next hs
  · obtain ⟨t', hok', ht⟩ := hbody hadm hok
    exact ⟨t', by rw [whenAdmitted_execute _ (hphase ▸ hadm), hok', settle_ok], ht⟩
  · exact ⟨_, whenAdmitted_invalid _ (hphase ▸ hadm), h.raise _⟩
  · exact ⟨_, whenAdmitted_discard _ (hphase ▸ hadm), h.advance⟩

/-- A byte written at FILL leaves two buffers that agree below FILL in agreement up to it. -/
theorem Memory.write_agree {m n : Memory} {k : Nat} (b : Byte) (h : ∀ a, a < k → m.read a = n.read a) {a : Nat}
    (ha : a < k + 1) : (m.write k b).read a = (n.write k b).read a := by
  rw [Memory.read_write, Memory.read_write]
  exact ite_congr rfl (fun _ => rfl) fun hne => h a (by omega)

/-- APPEND either stores a byte at FILL, or completes the buffer for BLOCK. -/
theorem appendByte_hidden {s s' t : State} {b : Byte} (h : HiddenOnly s s') (hs : appendByte b s = .ok t) :
    ∃ t', appendByte b s' = .ok t' ∧ HiddenOnly t t' := by
  obtain ⟨m, x, rfl, hbytes⟩ := hiddenOnly_iff.mp h
  by_cases hf : s.fill = 63
  · have hfill : s.fill.toNat = 63 := (fill_eq_63_iff _).mp hf
    rw [appendByte_last b hf] at hs
    refine ⟨t, ?_, .refl t⟩
    rw [appendByte_last b (s := s.withHidden m x) hf, ← hs]
    exact blockProc_withHidden (s := { s with buf := s.buf.write 63 b, fill := 0 }) x fun a ha =>
      Memory.write_agree b (hfill ▸ hbytes) ha
  · rw [appendByte_room b hf] at hs
    injection hs with hs
    subst hs
    refine ⟨_, appendByte_room b (s := s.withHidden m x) hf, rfl, fun a ha => Memory.write_agree b hbytes ?_⟩
    have hlt : a < (s.fill.toNat + 1) % 64 := by simpa [BitVec.toNat_add] using ha
    exact hlt.trans_le (Nat.mod_le _ _)

theorem pushBody_hidden {s s' t : State} {b : Byte} (h : HiddenOnly s s') (hs : pushBody b s = .ok t) :
    ∃ t', pushBody b s' = .ok t' ∧ HiddenOnly t t' := by
  obtain ⟨m, x, rfl, hbytes⟩ := hiddenOnly_iff.mp h
  obtain ⟨hlimit, rfl⟩ | ⟨hlimit, u, hu, rfl⟩ := pushBody_cases hs
  · refine ⟨_, ?_, h.raise _⟩
    exact if_pos ((len_eq_limit_iff s.len s.cfg).mpr hlimit)
  · have hwritten : HiddenOnly (writeLen s (s.len + 8)) (writeLen (s.withHidden m x) (s.len + 8)) := ⟨rfl, hbytes⟩
    obtain ⟨u', hu', hrel⟩ := appendByte_hidden hwritten hu
    refine ⟨_, ?_, hrel.advance⟩
    rw [pushBody_below b (s := s.withHidden m x) hlimit]
    exact congrArg (Except.map Machine.advance) hu'

theorem finalBody_withHidden {s : State} {m : Memory} (x : Transient)
    (h : ∀ a, a < s.fill.toNat → m.read a = s.buf.read a) : finalBody (s.withHidden m x) = finalBody s := by
  rw [finalBody, finalBody, padfin_withHidden x h]

/-- INIT drops what is hidden, PUSH and FINAL read the bytes below FILL only, DIGEST and the read-backs read none. -/
theorem exec_hidden {i : Instr} {s s' t : State} (h : HiddenOnly s s') (hs : exec i s = .next t) :
    ∃ t', exec i s' = .next t' ∧ HiddenOnly t t' := by
  obtain ⟨m, x, rfl, hbytes⟩ := hiddenOnly_iff.mp h
  cases i with
  | init => exact ⟨t, hs, .refl t⟩
  | push b => exact whenAdmitted_hidden h (fun _ hbody => pushBody_hidden h hbody) hs
  | final =>
    exact whenAdmitted_hidden h (fun _ hbody => ⟨t, (finalBody_withHidden x hbytes).trans hbody, .refl t⟩) hs
  | digest =>
    refine whenAdmitted_hidden h (fun _ hbody => ⟨_, rfl, ?_⟩) hs
    injection hbody with hbody
    rw [← hbody, foldl_emitHex, foldl_emitHex]
    exact ⟨rfl, hbytes⟩
  | rdv y => injection hs with hs; exact ⟨_, rfl, by rw [← hs]; exact ⟨rfl, hbytes⟩⟩
  | rdlen y => injection hs with hs; exact ⟨_, rfl, by rw [← hs]; exact ⟨rfl, hbytes⟩⟩
  | rdst => injection hs with hs; exact ⟨_, rfl, by rw [← hs]; exact ⟨rfl, hbytes⟩⟩

theorem execIllegal_hidden {s s' : State} (h : HiddenOnly s s') : HiddenOnly (execIllegal s) (execIllegal s') := by
  obtain ⟨m, x, rfl, hbytes⟩ := hiddenOnly_iff.mp h
  by_cases hp : s.phase = .fault
  · rw [execIllegal, execIllegal, if_pos hp, if_pos (show (s.withHidden m x).phase = .fault from hp)]
    exact h.advance
  · rw [execIllegal, execIllegal, if_neg hp, if_neg (show ¬ (s.withHidden m x).phase = .fault from hp)]
    exact h.raise _

theorem runWord_hidden {w : CmdWord} {s s' t : State} (h : HiddenOnly s s') (hs : runWord w s = .next t) :
    ∃ t', runWord w s' = .next t' ∧ HiddenOnly t t' := by
  unfold runWord at hs ⊢
  split at hs
  · exact exec_hidden h hs
  · injection hs with hs
    exact ⟨_, rfl, hs ▸ execIllegal_hidden h⟩

theorem outputsSince_stopped {s : State} {r : Result} (h : ∀ t, r ≠ .next t) : outputsSince s r = [] := by
  cases r with
  | next t => exact absurd rfl (h t)
  | fault f => rfl
  | refused f => rfl

/-- A word outputs the same in both states; where it stops in one, it stops in the other. -/
theorem outputsSince_hidden {w : CmdWord} {s s' : State} (h : HiddenOnly s s') :
    outputsSince s' (runWord w s') = outputsSince s (runWord w s) := by
  by_cases hnext : ∃ t, runWord w s = .next t
  · obtain ⟨t, ht⟩ := hnext
    obtain ⟨t', ht', hrel⟩ := runWord_hidden h ht
    rw [ht, ht']
    simp only [outputsSince, hrel.out_eq, h.out_eq]
  · have hstop (t : State) : runWord w s ≠ .next t := fun ht => hnext ⟨t, ht⟩
    have hstop' (t' : State) : runWord w s' ≠ .next t' := fun ht' => by
      obtain ⟨t, ht, -⟩ := runWord_hidden h.symm ht'
      exact hstop t ht
    rw [outputsSince_stopped hstop, outputsSince_stopped hstop']

theorem cutByReset_hidden {w : CmdWord} {s s' : State} (h : HiddenOnly s s') :
    cutByReset s' (runWord w s') = cutByReset s (runWord w s) := by
  rw [cutByReset, cutByReset, outputsSince_hidden h]
  obtain ⟨m, x, rfl, -⟩ := hiddenOnly_iff.mp h
  rfl

theorem runEvent_hidden {e : HostEvent} {s s' t : State} (h : HiddenOnly s s') (hs : runEvent e s = .next t) :
    ∃ t', runEvent e s' = .next t' ∧ HiddenOnly t t' := by
  cases e with
  | command w => exact runWord_hidden h hs
  | reset =>
    obtain ⟨m, x, rfl, -⟩ := hiddenOnly_iff.mp h
    exact ⟨t, hs, .refl t⟩
  | commandCutByReset w => exact ⟨t, by rw [← hs, runEvent, runEvent, cutByReset_hidden h], .refl t⟩

/-- Settles O41: a word goes the same way in both states, and a reset drops what is hidden. -/
theorem hiddenStateIsUnobservable : Obligations.HiddenStateIsUnobservable := by
  intro s s' t h hs
  unfold step at hs ⊢
  rw [h.port_eq]
  split at hs
  · injection hs with hs
    exact ⟨s', rfl, hs ▸ h⟩
  · exact runEvent_hidden (h.withPort _) hs

end Sys2Proof.Machine
end

section
/-!
What a command can write besides the history and the command pointer (spec 10_state.md R20, R24 to R29), in six cases for
the proofs about what every command keeps.
-/

namespace Sys2Proof.Machine

/-- INIT; PUSH with room; PUSH of the byte that fills the buffer; FINAL; fault entry; and every other command, which writes
no more than the history. -/
theorem exec_writes {i : Instr} {s t : State} (h : exec i s = .next t) :
    (i = .init ∧ t = advance (initBody s)) ∨
    (∃ b, i = .push b ∧ s.phase = .absorb ∧ s.len.toNat ≠ 2 ^ s.cfg.lenw.bits - 8 ∧ s.fill ≠ 63 ∧
      t = advance { writeLen s (s.len + 8) with buf := s.buf.write s.fill.toNat b, fill := s.fill + 1 }) ∨
    (∃ b B, i = .push b ∧ s.phase = .absorb ∧ s.len.toNat ≠ 2 ^ s.cfg.lenw.bits - 8 ∧ s.fill = 63 ∧
      t = advance { writeLen s (s.len + 8) with
        v := compress s.v B, buf := [], fill := 0, transient := .unspecified }) ∨
    (∃ v, i = .final ∧ s.phase = .absorb ∧ (∃ B, v = compress s.v B ∨ ∃ C, v = compress (compress s.v B) C) ∧
      t = advance { s with v := v, fill := 0, buf := [], transient := .unspecified, phase := .done }) ∨
    (∃ c, c ≠ .noFault ∧ t = raise c s) ∨
    (∃ o, t = advance { s with out := s.out ++ o }) := by
  obtain ⟨rfl, rfl⟩ | ⟨b, -, -, -, rfl⟩ | ⟨b, rfl, hp, hne, hf, rfl⟩ | ⟨b, rfl, hp, hne, hf, happend, v, rfl⟩ |
    ⟨rfl, hp, hpad, v, rfl⟩ | ⟨-, -, rfl⟩ | ⟨_, -, rfl⟩ | ⟨_, -, rfl⟩ | ⟨-, rfl⟩ | ⟨-, rfl⟩ | ⟨-, rfl⟩ := exec_cases h
  · exact .inl ⟨rfl, rfl⟩
  · exact .inr (.inr (.inr (.inr (.inl ⟨_, by decide, rfl⟩))))
  · exact .inr (.inl ⟨b, rfl, hp, hne, hf, rfl⟩)
  · rw [appendByte_last b (s := writeLen s (s.len + 8)) hf] at happend
    obtain ⟨B, hB⟩ := blockProc_ok_compress happend
    have hv : v = compress s.v B := hB
    exact .inr (.inr (.inl ⟨b, B, rfl, hp, hne, hf, by rw [hv]⟩))
  · exact .inr (.inr (.inr (.inl ⟨v, rfl, hp, padfin_ok_compress hpad, rfl⟩)))
  · exact .inr (.inr (.inr (.inr (.inr ⟨_, rfl⟩))))
  · exact .inr (.inr (.inr (.inr (.inr ⟨_, rfl⟩))))
  · exact .inr (.inr (.inr (.inr (.inr ⟨_, rfl⟩))))
  · exact .inr (.inr (.inr (.inr (.inr ⟨_, rfl⟩))))
  · exact .inr (.inr (.inr (.inr (.inl ⟨_, by decide, rfl⟩))))
  · exact .inr (.inr (.inr (.inr (.inr ⟨[], by simp⟩))))

/-- A PUSH below the limit counts its byte in LEN without wrapping (R25, 42_padder.md R114). -/
theorem len_push {x : BitVec 64} {cfg : Config} (h8 : x.toNat % 8 = 0) (hle : x.toNat ≤ 2 ^ cfg.lenw.bits - 8)
    (hne : x.toNat ≠ 2 ^ cfg.lenw.bits - 8) :
    ((x + 8) &&& lenMask cfg).toNat = x.toNat + 8 ∧ x.toNat + 8 ≤ 2 ^ cfg.lenw.bits - 8 := by
  refine ⟨len_add_toNat h8 hle hne, ?_⟩
  cases hw : cfg.lenw <;> simp only [hw, LenWidth.bits] at hle hne ⊢ <;> omega

/-- Settles O23: INIT clears LEN, a PUSH below the limit counts up, and no other case writes it. -/
theorem lengthCountsWithoutWrapping : Obligations.LengthCountsWithoutWrapping := by
  intro i s t h8 hle h
  have hpush (b : Byte) (hi : i = .push b) (hne : s.len.toNat ≠ 2 ^ s.cfg.lenw.bits - 8)
      (ht : t.len = (s.len + 8) &&& lenMask s.cfg) : t.len.toNat % 8 = 0 ∧ t.len.toNat ≤ 2 ^ s.cfg.lenw.bits - 8 ∧
        (t.len = s.len ∨ (i = .init ∧ t.len = 0) ∨ (∃ b, i = .push b) ∧ t.len.toNat = s.len.toNat + 8) := by
    obtain ⟨hlen, hfits⟩ := len_push h8 hle hne
    rw [← ht] at hlen
    exact ⟨by omega, by omega, .inr (.inr ⟨⟨b, hi⟩, hlen⟩)⟩
  obtain ⟨rfl, rfl⟩ | ⟨b, rfl, -, hne, -, rfl⟩ | ⟨b, _, rfl, -, hne, -, rfl⟩ | ⟨_, -, -, -, rfl⟩ | ⟨_, -, rfl⟩ |
    ⟨_, rfl⟩ := exec_writes h
  · exact ⟨rfl, Nat.zero_le _, .inr (.inl ⟨rfl, rfl⟩)⟩
  · exact hpush b rfl hne rfl
  · exact hpush b rfl hne rfl
  · exact ⟨h8, hle, .inl rfl⟩
  · exact ⟨h8, hle, .inl rfl⟩
  · exact ⟨h8, hle, .inl rfl⟩

/-- Settles O31: the cases that write `V` are INIT, the PUSH that runs BLOCK, and FINAL. -/
theorem stateWordsWrittenOnlyByInitAndBlock : Obligations.StateWordsWrittenOnlyByInitAndBlock := by
  intro i s t h hv
  obtain ⟨rfl, rfl⟩ | ⟨_, -, -, -, -, rfl⟩ | ⟨b, B, rfl, hp, -, hf, rfl⟩ | ⟨_, rfl, hp, hcompress, rfl⟩ |
    ⟨_, -, rfl⟩ | ⟨_, rfl⟩ := exec_writes h
  · exact .inl ⟨rfl, rfl⟩
  · exact absurd rfl hv
  · exact .inr (.inl ⟨b, rfl, hp, (fill_eq_63_iff _).mp hf, B, rfl⟩)
  · exact .inr (.inr ⟨rfl, hp, hcompress⟩)
  · exact absurd rfl hv
  · exact absurd rfl hv

end Sys2Proof.Machine
end

section
/-!
The invariant of the reachable states (spec 10_state.md R24, R36) holds at reset, every step keeps it, and from a state that
meets it every step completes.
-/

namespace Sys2Proof.Machine

/-- The invariant says nothing of the ports, the command pointer and the counter of free values. -/
theorem Inv.withPorts {s : State} (h : Inv s) (p : List HostEvent) (c : Nat) (o : List OutEvent) (f : Nat) :
    Inv { s with port := p, cp := c, out := o, freeCount := f } :=
  ⟨h.lenAligned, h.lenFits, h.faultIffCause, h.fillInAbsorb, h.fillOutside, h.idleFresh, h.bufWf, h.bufBelowFill,
    h.transientOff⟩

/-- Both ways to start afresh, reset and INIT: nothing counted, nothing in the buffer, no cause (R33, R112). -/
theorem inv_of_fresh {s : State} (hlen : s.len = 0) (hfill : s.fill = 0) (hbuf : s.buf = [])
    (hcause : s.cause = .noFault) (hphase : s.phase ≠ .fault) (hv : s.v = s.cfg.iv)
    (htransient : s.transient = .unspecified) : Inv s where
  lenAligned := by simp [hlen]
  lenFits := by simp [hlen]
  faultIffCause := by simp [hcause, hphase]
  fillInAbsorb _ := by simp [hlen, hfill]
  fillOutside _ := hfill
  idleFresh _ := ⟨hv, hlen⟩
  bufWf := by rw [hbuf]; exact Memory.wf_nil
  bufBelowFill a := by simp [hbuf, hfill]
  transientOff := htransient

/-- Settles O45: reset is a fresh start. -/
theorem invHoldsAtReset : Obligations.InvHoldsAtReset :=
  inv_of_fresh rfl rfl rfl rfl (by decide) rfl rfl

theorem inv_resetEngine (s : State) : Inv (resetEngine s) :=
  inv_of_fresh rfl rfl rfl rfl (by simp) rfl rfl

/-- A fault leaves the data as the faulting command found them (60_exceptions.md R187). -/
theorem Inv.raise {s : State} {c : Cause} (h : Inv s) (hc : c ≠ .noFault) : Inv (raise c s) where
  lenAligned := h.lenAligned
  lenFits := h.lenFits
  faultIffCause := by simp [hc]
  fillInAbsorb hp := by simp at hp
  fillOutside hp := by simp at hp
  idleFresh hp := by simp at hp
  bufWf := h.bufWf
  bufBelowFill := h.bufBelowFill
  transientOff := h.transientOff

theorem Inv.advance {s : State} (h : Inv s) : Inv (advance s) := h.withPorts _ _ _ _

theorem Inv.cause_of_phase {s : State} (h : Inv s) (hp : s.phase ≠ .fault) : s.cause = .noFault :=
  not_not.mp fun hc => hp (h.faultIffCause.mpr hc)

theorem fill_succ_toNat {x : BitVec 6} (h : x ≠ 63) : (x + 1).toNat = x.toNat + 1 := by
  have hne : x.toNat ≠ 63 := fun e => h ((fill_eq_63_iff x).mpr e)
  have hlt := x.isLt
  have hone : (1 : BitVec 6).toNat = 1 := rfl
  rw [BitVec.toNat_add, hone]
  omega

/-- PUSH with room: one byte more has a value, and FILL and LEN count it. -/
theorem Inv.push_room {s : State} (h : Inv s) (b : Byte) (hp : s.phase = .absorb)
    (hne : s.len.toNat ≠ 2 ^ s.cfg.lenw.bits - 8) (hf : s.fill ≠ 63) :
    Inv { writeLen s (s.len + 8) with buf := s.buf.write s.fill.toNat b, fill := s.fill + 1 } := by
  obtain ⟨hlen, hfits⟩ := len_push h.lenAligned h.lenFits hne
  have haligned := h.lenAligned
  have hfill := h.fillInAbsorb hp
  have hlt := s.fill.isLt
  have hsucc := fill_succ_toNat hf
  exact
    { lenAligned := by rw [writeLen_len, hlen]; omega
      lenFits := by rw [writeLen_len, hlen]; exact hfits
      faultIffCause := h.faultIffCause
      fillInAbsorb := fun _ => by
        show (s.fill + 1).toNat = _
        rw [writeLen_len, hlen, hsucc]
        omega
      fillOutside := by simp [hp]
      idleFresh := by simp [hp]
      bufWf := Memory.wf_write b h.bufWf hlt
      bufBelowFill := fun a => by
        show ((s.buf.write s.fill.toNat b).read a).isSome = true ↔ a < (s.fill + 1).toNat
        rw [Memory.read_write, hsucc]
        split
        · simp; omega
        · rw [h.bufBelowFill]; omega
      transientOff := h.transientOff }

/-- PUSH of the last byte of a block: the buffer is consumed, FILL is 0 again, as LEN says. -/
theorem Inv.push_last {s : State} (h : Inv s) (v : Words8) (hp : s.phase = .absorb)
    (hne : s.len.toNat ≠ 2 ^ s.cfg.lenw.bits - 8) (hf : s.fill = 63) :
    Inv { writeLen s (s.len + 8) with v := v, buf := [], fill := 0, transient := .unspecified } := by
  obtain ⟨hlen, hfits⟩ := len_push h.lenAligned h.lenFits hne
  have haligned := h.lenAligned
  have hfill := h.fillInAbsorb hp
  rw [(fill_eq_63_iff _).mp hf] at hfill
  exact
    { lenAligned := by rw [writeLen_len, hlen]; omega
      lenFits := by rw [writeLen_len, hlen]; exact hfits
      faultIffCause := h.faultIffCause
      fillInAbsorb := fun _ => by
        show 0 = _
        rw [writeLen_len, hlen]
        omega
      fillOutside := by simp [hp]
      idleFresh := by simp [hp]
      bufWf := Memory.wf_nil
      bufBelowFill := fun a => by simp
      transientOff := rfl }

theorem Inv.final {s : State} (h : Inv s) (v : Words8) (hp : s.phase = .absorb) :
    Inv { s with v := v, fill := 0, buf := [], transient := .unspecified, phase := .done } where
  lenAligned := h.lenAligned
  lenFits := h.lenFits
  faultIffCause := by simp [h.cause_of_phase (by simp [hp])]
  fillInAbsorb hdone := by simp at hdone
  fillOutside _ := rfl
  idleFresh hdone := by simp at hdone
  bufWf := Memory.wf_nil
  bufBelowFill a := by simp
  transientOff := rfl

theorem exec_inv {i : Instr} {s t : State} (h : Inv s) (hs : exec i s = .next t) : Inv t := by
  obtain ⟨-, rfl⟩ | ⟨b, -, hp, hne, hf, rfl⟩ | ⟨_, B, -, hp, hne, hf, rfl⟩ | ⟨v, -, hp, -, rfl⟩ | ⟨c, hc, rfl⟩ |
    ⟨_, rfl⟩ := exec_writes hs
  · exact inv_of_fresh rfl rfl rfl rfl (by simp) rfl rfl
  · exact (h.push_room b hp hne hf).advance
  · exact (h.push_last (compress s.v B) hp hne hf).advance
  · exact (h.final v hp).advance
  · exact h.raise hc
  · exact h.withPorts _ _ _ _

theorem Inv.execIllegal {s : State} (h : Inv s) : Inv (execIllegal s) := by
  unfold Machine.execIllegal
  split
  · exact h.advance
  · exact h.raise (by decide)

/-- Settles O46: commands and illegal words keep the invariant, and a reset starts afresh. -/
theorem invKeptByEveryStep : Obligations.InvKeptByEveryStep := by
  intro s t h hs
  obtain ⟨-, rfl⟩ | ⟨w, i, rest, -, -, hi⟩ | ⟨w, y, rest, -, -, rfl⟩ | ⟨rest, -, rfl⟩ | ⟨w, rest, -, rfl⟩ :=
    step_cases hs
  · exact h
  · exact exec_inv (h.withPorts rest _ _ _) hi
  · exact (h.withPorts rest _ _ _).execIllegal
  · exact inv_resetEngine _
  · exact (inv_resetEngine _).withPorts _ _ _ _

/-! ### Progress -/

theorem whenAdmitted_completes {i : Instr} {s : State} {body : Except Fault State}
    (h : admission i s.phase = .execute → ∃ t, body = .ok t) : ∃ t, whenAdmitted i s body = .next t := by
  cases hadm : admission i s.phase with
  | execute =>
    obtain ⟨t, ht⟩ := h hadm
    exact ⟨t, by rw [whenAdmitted_execute _ hadm, ht, settle_ok]⟩
  | invalidInput => exact ⟨_, whenAdmitted_invalid _ hadm⟩
  | discard => exact ⟨_, whenAdmitted_discard _ hadm⟩

/-- APPEND runs BLOCK only when the byte it stores is the last of a full buffer. -/
theorem appendByte_completes {s : State} (b : Byte) (h : ∀ a, a < s.fill.toNat → (s.buf.read a).isSome = true) :
    ∃ t, appendByte b s = .ok t := by
  by_cases hf : s.fill = 63
  · rw [appendByte_last b hf]
    refine blockProc_of_values fun a ha => ?_
    show ((s.buf.write 63 b).read a).isSome = true
    rw [Memory.read_write]
    split
    · rfl
    · exact h a (by rw [(fill_eq_63_iff _).mp hf]; omega)
  · exact ⟨_, appendByte_room b hf⟩

theorem pushBody_completes {s : State} (b : Byte) (h : ∀ a, a < s.fill.toNat → (s.buf.read a).isSome = true) :
    ∃ t, pushBody b s = .ok t := by
  by_cases hlimit : s.len.toNat = 2 ^ s.cfg.lenw.bits - 8
  · exact ⟨_, if_pos ((len_eq_limit_iff s.len s.cfg).mpr hlimit)⟩
  · obtain ⟨t, ht⟩ := appendByte_completes (s := writeLen s (s.len + 8)) b h
    exact ⟨advance t, by rw [pushBody_below b hlimit, ht]; rfl⟩

/-- No command reads a byte at or above FILL that it has not written itself. -/
theorem exec_completes {s : State} (i : Instr) (h : ∀ a, a < s.fill.toNat → (s.buf.read a).isSome = true) :
    ∃ t, exec i s = .next t := by
  cases i with
  | push b => exact whenAdmitted_completes fun _ => pushBody_completes b h
  | final =>
    obtain ⟨t, ht⟩ := padfin_of_values h
    exact whenAdmitted_completes fun _ => ⟨_, by rw [finalBody, ht]; rfl⟩
  | digest => exact whenAdmitted_completes fun _ => ⟨_, rfl⟩
  | init => exact ⟨_, rfl⟩
  | rdv x => exact ⟨_, rfl⟩
  | rdlen x => exact ⟨_, rfl⟩
  | rdst => exact ⟨_, rfl⟩

theorem runWord_completes {s : State} (w : CmdWord) (h : ∀ a, a < s.fill.toNat → (s.buf.read a).isSome = true) :
    ∃ t, runWord w s = .next t := by
  unfold runWord
  split
  · exact exec_completes _ h
  · exact ⟨_, rfl⟩

/-- Settles O47: under the invariant the bytes below FILL have values, which is all that a word can need; a reset needs
nothing. -/
theorem noStepStopsUnderInv : Obligations.NoStepStopsUnderInv := by
  intro s h
  unfold StepCompletes step
  split
  · exact ⟨s, rfl⟩
  · rename_i e rest _
    cases e with
    | command w => exact runWord_completes (s := { s with port := rest }) w fun a => (h.bufBelowFill a).mpr
    | reset => exact ⟨_, rfl⟩
    | commandCutByReset w => exact ⟨_, rfl⟩

end Sys2Proof.Machine
end

section
/-!
The invariant with the message (spec 10_state.md R36 (c), (e), (f), (g)) holds at reset and every step keeps it.
-/

namespace Sys2Proof.Machine

theorem traced_idle {s : State} (hp : s.phase = .idle) : Traced s ↔ Absorbed [] s := by
  rw [Traced, hp]

theorem traced_absorb {s : State} (hp : s.phase = .absorb) : Traced s ↔ ∃ m, Absorbed m s := by
  rw [Traced, hp]

theorem traced_done {s : State} (hp : s.phase = .done) : Traced s ↔ ∃ m, Finished m s := by
  rw [Traced, hp]

theorem traced_fault {s : State} (hp : s.phase = .fault) : Traced s ↔ ∃ m, Absorbed m s ∨ Finished m s := by
  rw [Traced, hp]

/-- What has been absorbed does not depend on phase and cause, the ports and the counters. -/
theorem Absorbed.withControl {m : List Byte} {s : State} (h : Absorbed m s) (ph : Phase) (ca : Cause)
    (p : List HostEvent) (c : Nat) (o : List OutEvent) :
    Absorbed m { s with phase := ph, cause := ca, port := p, cp := c, out := o } :=
  ⟨h.size, h.len, h.fill, h.state, h.bytes⟩

theorem Finished.withControl {m : List Byte} {s : State} (h : Finished m s) (ph : Phase) (ca : Cause)
    (p : List HostEvent) (c : Nat) (o : List OutEvent) :
    Finished m { s with phase := ph, cause := ca, port := p, cp := c, out := o } :=
  ⟨h.size, h.len, h.fill, h.state, h.bytes⟩

/-- A state in the same phase that has absorbed and finished the same messages is traced as well. -/
theorem Traced.imp {s t : State} (h : Traced s) (hphase : t.phase = s.phase)
    (habs : ∀ m, Absorbed m s → Absorbed m t) (hfin : ∀ m, Finished m s → Finished m t) : Traced t := by
  cases hp : s.phase with
  | idle => exact (traced_idle (hphase.trans hp)).mpr (habs [] ((traced_idle hp).mp h))
  | absorb => exact (traced_absorb (hphase.trans hp)).mpr (((traced_absorb hp).mp h).imp habs)
  | done => exact (traced_done (hphase.trans hp)).mpr (((traced_done hp).mp h).imp hfin)
  | fault =>
    exact (traced_fault (hphase.trans hp)).mpr (((traced_fault hp).mp h).imp fun m => Or.imp (habs m) (hfin m))

theorem Traced.withPorts {s : State} (h : Traced s) (p : List HostEvent) (c : Nat) (o : List OutEvent) :
    Traced { s with port := p, cp := c, out := o } :=
  h.imp rfl (fun _ hm => hm.withControl _ _ _ _ _) (fun _ hm => hm.withControl _ _ _ _ _)

/-- In every phase the data is that of a message absorbed or finished. -/
theorem Traced.exists_message {s : State} (h : Traced s) : ∃ m, Absorbed m s ∨ Finished m s := by
  cases hp : s.phase with
  | idle => exact ⟨[], .inl ((traced_idle hp).mp h)⟩
  | absorb => exact ((traced_absorb hp).mp h).imp fun _ => .inl
  | done => exact ((traced_done hp).mp h).imp fun _ => .inr
  | fault => exact (traced_fault hp).mp h

/-- A fault leaves the data as it was (R36 (g); 60_exceptions.md R187). -/
theorem Traced.raise {s : State} (c : Cause) (h : Traced s) : Traced (raise c s) := by
  obtain ⟨m, hm⟩ := h.exists_message
  exact (traced_fault rfl).mpr ⟨m, hm.imp (·.withControl _ _ _ _ _) (·.withControl _ _ _ _ _)⟩

theorem Traced.advance {s : State} (h : Traced s) : Traced (advance s) := h.withPorts _ _ _

theorem Traced.execIllegal {s : State} (h : Traced s) : Traced (execIllegal s) := by
  unfold Machine.execIllegal
  split
  · exact h.advance
  · exact h.raise _

/-- An engine with `V` from IV and nothing counted or buffered has absorbed the empty message. -/
theorem absorbed_nil {s : State} (hv : s.v = s.cfg.iv) (hlen : s.len = 0) (hfill : s.fill = 0) (hbuf : s.buf = []) :
    Absorbed [] s where
  size := Nat.zero_le _
  len := by simp [hlen]
  fill := by simp [hfill]
  state := hv
  bytes a := by simp [hbuf]

/-- Settles O49: reset is such an engine. -/
theorem tracedHoldsAtReset : Obligations.TracedHoldsAtReset :=
  (traced_idle rfl).mpr (absorbed_nil rfl rfl rfl rfl)

theorem traced_resetEngine (s : State) : Traced (resetEngine s) :=
  (traced_idle rfl).mpr (absorbed_nil rfl rfl rfl rfl)

/-- PUSH below the limit leaves a longer message absorbed. -/
theorem Traced.push {s t : State} {b : Byte} (h : Traced s) (hp : s.phase = .absorb)
    (hne : s.len.toNat ≠ 2 ^ s.cfg.lenw.bits - 8) (hs : exec (.push b) s = .next t) : Traced t := by
  obtain ⟨m, hm⟩ := (traced_absorb hp).mp h
  have hroom : m.length < maxBytes s.cfg := by
    have hsize := hm.size
    rw [hm.len, ← eight_mul_maxBytes] at hne
    omega
  obtain ⟨u, hu, hphase, -, habs⟩ := exec_push_absorbed b hp hm hroom
  obtain rfl : u = t := by injection hu.symm.trans hs
  exact (traced_absorb hphase).mpr ⟨_, habs⟩

theorem Traced.final {s t : State} (h : Traced s) (hp : s.phase = .absorb) (hs : exec .final s = .next t) :
    Traced t := by
  obtain ⟨m, hm⟩ := (traced_absorb hp).mp h
  obtain ⟨u, hu, hphase, -, hfin⟩ := exec_final_absorbed hp hm
  obtain rfl : u = t := by injection hu.symm.trans hs
  exact (traced_done hphase).mpr ⟨m, hfin⟩

theorem exec_traced {i : Instr} {s t : State} (h : Traced s) (hs : exec i s = .next t) : Traced t := by
  obtain ⟨-, rfl⟩ | ⟨b, rfl, hp, hne, -, -⟩ | ⟨b, _, rfl, hp, hne, -, -⟩ | ⟨_, rfl, hp, -, -⟩ | ⟨c, -, rfl⟩ |
    ⟨_, rfl⟩ := exec_writes hs
  · exact (traced_absorb rfl).mpr ⟨[], absorbed_nil_init s⟩
  · exact h.push hp hne hs
  · exact h.push hp hne hs
  · exact h.final hp hs
  · exact h.raise c
  · exact h.withPorts _ _ _

/-- Settles O50: PUSH extends the message, FINAL finishes it, INIT and reset drop it, and nothing else touches it. -/
theorem tracedKeptByEveryStep : Obligations.TracedKeptByEveryStep := by
  intro s t h hs
  obtain ⟨-, rfl⟩ | ⟨w, i, rest, -, -, hi⟩ | ⟨w, y, rest, -, -, rfl⟩ | ⟨rest, -, rfl⟩ | ⟨w, rest, -, rfl⟩ :=
    step_cases hs
  · exact h
  · exact exec_traced (h.withPorts rest _ _) hi
  · exact (h.withPorts rest _ _).execIllegal
  · exact traced_resetEngine _
  · exact (traced_idle rfl).mpr (absorbed_nil rfl rfl rfl rfl)

end Sys2Proof.Machine
end

section
/-!
What every step keeps of the parameters and the output history (spec 10_state.md R35, R37), and the state after reset
(R33).
-/

namespace Sys2Proof.Machine

@[simp] theorem execIllegal_cfg (s : State) : (execIllegal s).cfg = s.cfg := by
  unfold execIllegal
  split <;> rfl

@[simp] theorem execIllegal_out (s : State) : (execIllegal s).out = s.out := by
  unfold execIllegal
  split <;> rfl

/-- Settles O39: neither a command nor a reset writes the configuration. -/
theorem stepKeepsParameters : Obligations.StepKeepsParameters := by
  intro s t hs
  obtain ⟨-, rfl⟩ | ⟨w, i, rest, -, -, hi⟩ | ⟨w, y, rest, -, -, rfl⟩ | ⟨rest, -, rfl⟩ | ⟨w, rest, -, rfl⟩ :=
    step_cases hs
  · rfl
  · exact (exec_cfg hi :)
  · exact execIllegal_cfg _
  · rfl
  · rfl

/-- What a command adds to the history: nothing, the digest's characters, or one response (R37, R160, R170 to R172). -/
theorem exec_out_cases {i : Instr} {s t : State} (h : exec i s = .next t) :
    t.out = s.out ∨
    (i = .digest ∧ s.phase = .done ∧ t.out = s.out ++ (hexStr s.v).map .hex) ∨
    (((∃ x, i = .rdv x) ∨ (∃ x, i = .rdlen x) ∨ i = .rdst) ∧ ∃ r, t.out = s.out ++ [.resp r]) := by
  obtain ⟨-, rfl⟩ | ⟨_, -, -, -, rfl⟩ | ⟨_, -, -, -, -, rfl⟩ | ⟨_, -, -, -, -, -, _, rfl⟩ | ⟨-, -, -, _, rfl⟩ |
    ⟨rfl, hp, rfl⟩ | ⟨x, rfl, rfl⟩ | ⟨x, rfl, rfl⟩ | ⟨rfl, rfl⟩ | ⟨-, rfl⟩ | ⟨-, rfl⟩ := exec_cases h
  · exact .inl rfl
  · exact .inl rfl
  · exact .inl rfl
  · exact .inl rfl
  · exact .inl rfl
  · exact .inr (.inl ⟨rfl, hp, rfl⟩)
  · exact .inr (.inr ⟨.inl ⟨x, rfl⟩, _, rfl⟩)
  · exact .inr (.inr ⟨.inr (.inl ⟨x, rfl⟩), _, rfl⟩)
  · exact .inr (.inr ⟨.inr (.inr rfl), _, rfl⟩)
  · exact .inl rfl
  · exact .inl rfl

theorem exec_out_appends {i : Instr} {s t : State} (h : exec i s = .next t) : ∃ e, t.out = s.out ++ e := by
  obtain hout | ⟨-, -, hout⟩ | ⟨-, r, hout⟩ := exec_out_cases h
  · exact ⟨[], by simp [hout]⟩
  · exact ⟨_, hout⟩
  · exact ⟨_, hout⟩

theorem step_out_appends {s t : State} (h : step s = .next t) : ∃ e, t.out = s.out ++ e := by
  obtain ⟨-, rfl⟩ | ⟨w, i, rest, -, -, hi⟩ | ⟨w, y, rest, -, -, rfl⟩ | ⟨rest, -, rfl⟩ | ⟨w, rest, -, rfl⟩ :=
    step_cases h
  · exact ⟨[], by simp⟩
  · exact (exec_out_appends hi :)
  · exact ⟨[], by simp⟩
  · exact ⟨[], by simp⟩
  · exact ⟨_, rfl⟩

/-- Settles O40: a step appends, and of the words only DIGEST in DONE and the read-backs do. -/
theorem outputHistoryOnlyGrows : Obligations.OutputHistoryOnlyGrows := by
  refine ⟨fun s t => step_out_appends, fun w s t h hout => ?_⟩
  unfold runWord at h
  split at h
  · rename_i i hd
    rw [hd]
    obtain hsame | ⟨rfl, hp, hdigest⟩ | ⟨hread, hresp⟩ := exec_out_cases h
    · exact absurd hsame hout
    · exact .inl ⟨rfl, hp, by simp [hdigest, hexStr]⟩
    · exact .inr ⟨by simpa using hread, hresp⟩
  · injection h with h
    exact absurd (h ▸ execIllegal_out s) hout

/-- Settles O44: the reset values are written out in `State.reset`; INIT and RDV complete in every state. -/
theorem resetValues : Obligations.ResetValues :=
  ⟨fun _ => rfl, rfl, rfl, rfl, rfl, by decide, fun s => ⟨advance (initBody s), rfl, rfl⟩,
    fun i => ⟨advance (emitResp State.reset (stateWord State.reset i)), rfl, rfl⟩⟩

end Sys2Proof.Machine
end

section
/-!
The schedule of a block (spec 20_memory.md R42; 43_schedule.md R130 to R133): the value of a big-endian word, and the
recurrence on the whole array.
-/

namespace Sys2Proof.Machine

/-- One more byte at the low end of a big-endian value (R42). -/
theorem toNat_append_byte {n : Nat} (x : BitVec n) (b : Byte) : (x ++ b).toNat = x.toNat * 2 ^ 8 + b.toNat := by
  rw [BitVec.toNat_append, ← Nat.shiftLeft_add_eq_or_of_lt b.isLt, Nat.shiftLeft_eq]

theorem blockWord_toNat (b : Block) {i : Nat} (h : i < 16) :
    (blockWord b ⟨i, h⟩).toNat =
      b[4 * i].toNat * 2 ^ 24 + b[4 * i + 1].toNat * 2 ^ 16 + b[4 * i + 2].toNat * 2 ^ 8 + b[4 * i + 3].toNat := by
  simp only [blockWord, toNat_append_byte]
  omega

/-- The first 16 words of the whole schedule are the words it starts from. -/
theorem expandAll_get_start (w : Vector Word 16) {i : Nat} (h : i < 16) : (expandAll w)[i] = w[i] :=
  expandAll_get w 0 i (by omega) (by omega)

/-- The recurrence of R131 on the whole array, where EXPAND has it on the words written so far. -/
theorem expandAll_get_next (w : Vector Word 16) {n : Nat} (h : n < 52) :
    (expandAll w)[n + 16] =
      p1 ((expandAll w)[n] ^^^ (expandAll w)[n + 7] ^^^ rotl (expandAll w)[n + 13] 15) ^^^ rotl (expandAll w)[n + 3] 7
        ^^^ (expandAll w)[n + 10] := by
  have before {i : Nat} (hi : i < n + 16) := expandAll_get w n i (by omega) hi
  rw [expandAll_get w (n + 1) (n + 16) h (by omega), expandWords_last, nextWord]
  simp only [before (show n < n + 16 by omega), before (show n + 7 < n + 16 by omega),
    before (show n + 13 < n + 16 by omega), before (show n + 3 < n + 16 by omega), before (show n + 10 < n + 16 by omega)]

/-- Settles O14: EXPAND keeps the 16 big-endian words it starts from, and no word that its recurrence reads is written
again afterwards. -/
theorem scheduleFollowsRecurrence : Obligations.ScheduleFollowsRecurrence := by
  refine fun b => ⟨fun i h => ?_, fun j h => ?_, fun j h => primeWords_get (schedW b) j (by omega)⟩
  · have hword : (schedW b)[i] = blockWord b ⟨i, h⟩ := (expandAll_get_start _ h).trans (Vector.getElem_ofFn _)
    rw [hword, blockWord_toNat]
  · obtain ⟨h16, h67⟩ := h
    obtain ⟨n, rfl⟩ := Nat.exists_eq_add_of_le' h16
    exact expandAll_get_next _ (by omega)

end Sys2Proof.Machine
end

section
/-!
The block buffer over one step (spec 10_state.md R24; 20_memory.md R40): what a step can leave in it, and so its canonical
form.
-/

namespace Sys2Proof.Machine

@[simp] theorem execIllegal_buf (s : State) : (execIllegal s).buf = s.buf := by
  unfold execIllegal
  split <;> rfl

/-- A command leaves the buffer as it is, drops it whole, or writes one byte at FILL. -/
theorem exec_buf {i : Instr} {s t : State} (h : exec i s = .next t) :
    t.buf = s.buf ∨ t.buf = [] ∨ ∃ b, t.buf = s.buf.write s.fill.toNat b := by
  obtain ⟨-, rfl⟩ | ⟨b, -, -, -, -, rfl⟩ | ⟨_, _, -, -, -, -, rfl⟩ | ⟨_, -, -, -, rfl⟩ | ⟨_, -, rfl⟩ | ⟨_, rfl⟩ :=
    exec_writes h
  · exact .inr (.inl rfl)
  · exact .inr (.inr ⟨b, rfl⟩)
  · exact .inr (.inl rfl)
  · exact .inr (.inl rfl)
  · exact .inl rfl
  · exact .inl rfl

/-- FILL has six bits, so the byte that a PUSH writes has an address below 64. -/
theorem exec_buf_wf {i : Instr} {s t : State} (h : s.buf.wf = true) (hs : exec i s = .next t) : t.buf.wf = true := by
  obtain hsame | hdropped | ⟨b, hwritten⟩ := exec_buf hs
  · rwa [hsame]
  · rw [hdropped]
    exact Memory.wf_nil
  · rw [hwritten]
    exact Memory.wf_write b h s.fill.isLt

/-- Settles O48: a command writes at FILL or drops the buffer, an illegal word leaves it, and a reset drops it. -/
theorem bufferKeepsCanonicalForm : Obligations.BufferKeepsCanonicalForm := by
  intro s t h hs
  obtain ⟨-, rfl⟩ | ⟨_, _, rest, -, -, hi⟩ | ⟨_, _, rest, -, -, rfl⟩ | ⟨rest, -, rfl⟩ | ⟨_, rest, -, rfl⟩ :=
    step_cases hs
  · exact h
  · exact exec_buf_wf (s := { s with port := rest }) h hi
  · rwa [execIllegal_buf]
  · exact Memory.wf_nil
  · exact Memory.wf_nil

end Sys2Proof.Machine
end

section
/-!
Commands and words are in one-to-one correspondence (spec 30_encoding.md R63, R64): the words that a row of the opcode
map matches are the words of its commands, so a word that decodes to a command is that command's word.
-/

namespace Sys2Proof

/-- Settles O1, by the decoder on the encoded word of each command. -/
theorem decodeOfEncodeIsIdentity : Obligations.DecodeOfEncodeIsIdentity := decode_encode

/-- Settles O5: seven words, one for each row of the opcode map, and one or two for each reason of R65. -/
theorem writtenWordsDecode : Obligations.WrittenWordsDecode := by
  unfold Obligations.WrittenWordsDecode
  decide

/-- The encoder's sum as one number, which is how R68 writes the words. -/
theorem encode_eq_ofNat (i : Instr) : encode i = BitVec.ofNat 16 (i.row.bits.toNat + i.operand) := by
  rw [encode, BitVec.ofNat_add, BitVec.ofNat_toNat, BitVec.setWidth_eq]

/-- A word is that of a command if it is the sum of the row's bits and the operand. -/
theorem encode_eq_of_toNat {i : Instr} {w : CmdWord} (h : w.toNat = i.row.bits.toNat + i.operand) : encode i = w := by
  rw [encode_eq_ofNat, ← h, BitVec.ofNat_toNat, BitVec.setWidth_eq]

theorem row_hits_encode (i : Instr) : i.row.hits (encode i) = true := by
  cases i with
  | push b =>
    have hb : b.toNat < 256 := b.isLt
    show rowPush.hits _ = true
    rw [rowPush_hits, encode_push_toNat]
    omega
  | rdv x => revert x; decide
  | rdlen x => revert x; decide
  | init => decide
  | final => decide
  | digest => decide
  | rdst => decide

/-- The bits that a row's mask leaves free are the operand of a command of that row. -/
theorem exists_encode_of_hits {r : Row} {w : CmdWord} (hr : r ∈ opcodeTable) (h : r.hits w = true) :
    ∃ i : Instr, i.row = r ∧ encode i = w := by
  simp only [opcodeTable, List.mem_cons, List.not_mem_nil, or_false] at hr
  obtain rfl | rfl | rfl | rfl | rfl | rfl | rfl := hr
  · exact ⟨.init, rfl, encode_eq_of_toNat ((rowInit_hits w).mp h)⟩
  · have hq := (rowPush_hits w).mp h
    have hw : w.toNat = 0x2000 + w.toNat % 256 := by omega
    exact ⟨.push (BitVec.ofNat 8 w.toNat), rfl, encode_eq_of_toNat hw⟩
  · exact ⟨.final, rfl, encode_eq_of_toNat ((rowFinal_hits w).mp h)⟩
  · exact ⟨.digest, rfl, encode_eq_of_toNat ((rowDigest_hits w).mp h)⟩
  · have hq := (rowRdv_hits w).mp h
    have hw : w.toNat = 0x5000 + w.toNat % 8 := by omega
    exact ⟨.rdv (operandIdx w), rfl, encode_eq_of_toNat hw⟩
  · have hq := (rowRdlen_hits w).mp h
    have hw : w.toNat = 0x6000 + w.toNat % 2 := by omega
    exact ⟨.rdlen (operandSel w), rfl, encode_eq_of_toNat hw⟩
  · exact ⟨.rdst, rfl, encode_eq_of_toNat ((rowRdst_hits w).mp h)⟩

/-- A word that no row matches is illegal (R64). -/
theorem decode_of_no_hit {w : CmdWord} (h : ∀ r ∈ opcodeTable, ¬ r.hits w = true) :
    decode w = .illegal (whyIllegal w) := by
  simp only [opcodeTable, List.forall_mem_cons] at h
  obtain ⟨hinit, hpush, hfinal, hdigest, hrdv, hrdlen, hrdst, -⟩ := h
  rw [decode, if_neg hinit, if_neg hpush, if_neg hfinal, if_neg hdigest, if_neg hrdv, if_neg hrdlen, if_neg hrdst]

theorem exists_hit_of_decode {w : CmdWord} {i : Instr} (h : decode w = .command i) :
    ∃ r ∈ opcodeTable, r.hits w = true := by
  by_contra! hno
  exact nomatch h.symm.trans (decode_of_no_hit hno)

/-- Settles O2: a row matches the word, so it is the word of some command, which can only be the one it decodes to. -/
theorem encodeOfDecodeIsIdentity : Obligations.EncodeOfDecodeIsIdentity := by
  intro w i h
  obtain ⟨r, hr, hhit⟩ := exists_hit_of_decode h
  obtain ⟨j, -, rfl⟩ := exists_encode_of_hits hr hhit
  have hij : Decoded.command j = .command i := (decode_encode j).symm.trans h
  injection hij with hij
  rw [hij]

theorem decode_eq_command_iff {w : CmdWord} {i : Instr} : decode w = .command i ↔ encode i = w :=
  ⟨encodeOfDecodeIsIdentity w i, fun h => h ▸ decode_encode i⟩

/-- A row matches exactly the words of its commands. -/
theorem Row.hits_iff_decode {r : Row} (hr : r ∈ opcodeTable) (w : CmdWord) :
    r.hits w = true ↔ ∃ i, decode w = .command i ∧ i.row = r := by
  constructor
  · intro h
    obtain ⟨i, hrow, hw⟩ := exists_encode_of_hits hr h
    exact ⟨i, decode_eq_command_iff.mpr hw, hrow⟩
  · rintro ⟨i, hdec, rfl⟩
    exact decode_eq_command_iff.mp hdec ▸ row_hits_encode i

/-- No word matches two rows of the opcode map, because it decodes to one command. -/
theorem Row.eq_of_hits {r q : Row} (hr : r ∈ opcodeTable) (hq : q ∈ opcodeTable) {w : CmdWord}
    (hrw : r.hits w = true) (hqw : q.hits w = true) : r = q := by
  obtain ⟨i, hi, rfl⟩ := (Row.hits_iff_decode hr w).mp hrw
  obtain ⟨j, hj, rfl⟩ := (Row.hits_iff_decode hq w).mp hqw
  have hij : Decoded.command i = .command j := hi.symm.trans hj
  injection hij with hij
  rw [hij]

/-- Settles O4: the rows are written out in the model, they are seven different rows, and each matches the words of its
own commands. -/
theorem opcodeMapMatchesWords : Obligations.OpcodeMapMatchesWords := by
  refine ⟨rfl, ?_, fun r hr w => (Row.hits_iff r w).symm.trans (Row.hits_iff_decode hr w)⟩
  have hdistinct : opcodeTable.Pairwise (· ≠ ·) := by decide
  refine hdistinct.imp_of_mem fun {r q} hr hq hne w => ?_
  rintro ⟨hrw, hqw⟩
  exact hne (Row.eq_of_hits hr hq ((Row.hits_iff r w).mpr hrw) ((Row.hits_iff q w).mpr hqw))

end Sys2Proof
end

section
/-!
The decoder's match and mask test against the check of the three fields (spec 30_encoding.md R61, R62, R65).
-/

namespace Sys2Proof

/-- A word as a number, by its fields (R61). -/
theorem Fields.toWord_toNat (f : Fields) :
    f.toWord.toNat = f.op.toNat * 2 ^ 12 + f.zero.toNat * 2 ^ 8 + f.imm.toNat := by
  have hhigh : (f.op ++ f.zero).toNat = f.op.toNat * 2 ^ 4 + f.zero.toNat := by
    rw [BitVec.toNat_append, ← Nat.shiftLeft_add_eq_or_of_lt f.zero.isLt, Nat.shiftLeft_eq]
  have hword : f.toWord.toNat = (f.op ++ f.zero).toNat * 2 ^ 8 + f.imm.toNat :=
    Machine.toNat_append_byte (f.op ++ f.zero) f.imm
  rw [hword, hhigh]
  ring

theorem Fields.eq_of_toNat_eq {f g : Fields} (hop : f.op.toNat = g.op.toNat) (hzero : f.zero.toNat = g.zero.toNat)
    (himm : f.imm.toNat = g.imm.toNat) : f = g := by
  cases f
  cases g
  rw [BitVec.toNat_inj] at hop hzero himm
  rw [Fields.mk.injEq]
  exact ⟨hop, hzero, himm⟩

theorem Fields.ofWord_toWord (f : Fields) : Fields.ofWord f.toWord = f := by
  have hword := f.toWord_toNat
  have hop : f.op.toNat < 2 ^ 4 := f.op.isLt
  have hzero : f.zero.toNat < 2 ^ 4 := f.zero.isLt
  have himm : f.imm.toNat < 2 ^ 8 := f.imm.isLt
  apply Fields.eq_of_toNat_eq <;>
    simp only [Fields.ofWord, BitVec.extractLsb'_toNat, Nat.shiftRight_eq_div_pow] <;> omega

theorem Fields.toWord_ofWord (w : CmdWord) : (Fields.ofWord w).toWord = w := by
  have hw : w.toNat < 2 ^ 16 := w.isLt
  apply BitVec.eq_of_toNat_eq
  simp only [Fields.toWord_toNat, Fields.ofWord, BitVec.extractLsb'_toNat, Nat.shiftRight_eq_div_pow]
  omega

/-- The encoder writes the command's fields (R62, R63). -/
theorem encode_eq_toWord (i : Instr) : encode i = i.fields.toWord := by
  cases i with
  | push b =>
    have hword : (Instr.push b).fields.toWord.toNat = 0x2000 + b.toNat := by simp [Instr.fields, Fields.toWord_toNat]
    exact encode_eq_of_toNat hword
  | rdv x => revert x; decide
  | rdlen x => revert x; decide
  | init => decide
  | final => decide
  | digest => decide
  | rdst => decide

/-- Every command is written with legal fields. -/
theorem Instr.fields_legal (i : Instr) : i.fields.legal = true := by
  obtain ⟨hwf, -⟩ : Laws.WellFormedFields.Statement i := by
    cases i with
    | init => exact Laws.WellFormedFields.init
    | push b => exact Laws.WellFormedFields.push b
    | final => exact Laws.WellFormedFields.final
    | digest => exact Laws.WellFormedFields.digest
    | rdv x => exact Laws.WellFormedFields.rdv x
    | rdlen x => exact Laws.WellFormedFields.rdlen x
    | rdst => exact Laws.WellFormedFields.rdst
  exact hwf

theorem opcode_cases (op : BitVec 4) (h : 1 ≤ op.toNat ∧ op.toNat ≤ 7) :
    op = 1 ∨ op = 2 ∨ op = 3 ∨ op = 4 ∨ op = 5 ∨ op = 6 ∨ op = 7 := by
  revert op
  decide

/-- Legal fields are those of a command: the opcode says of which, and imm holds its operand. -/
theorem Fields.exists_instr {f : Fields} (h : f.legal = true) : ∃ i : Instr, i.fields = f := by
  obtain ⟨op, zero, imm⟩ := f
  simp only [Fields.legal, Fields.opcodeInUse, Fields.zeroClear, Bool.and_eq_true, decide_eq_true_eq, beq_iff_eq] at h
  obtain ⟨⟨hop, rfl⟩, himm⟩ := h
  have hnum : BitVec.ofNat 8 imm.toNat = imm := by rw [BitVec.ofNat_toNat, BitVec.setWidth_eq]
  obtain rfl | rfl | rfl | rfl | rfl | rfl | rfl := opcode_cases op hop
  · obtain rfl : imm = 0 := eq_of_beq himm
    exact ⟨.init, rfl⟩
  · exact ⟨.push imm, rfl⟩
  · obtain rfl : imm = 0 := eq_of_beq himm
    exact ⟨.final, rfl⟩
  · obtain rfl : imm = 0 := eq_of_beq himm
    exact ⟨.digest, rfl⟩
  · exact ⟨.rdv ⟨imm.toNat, of_decide_eq_true himm⟩, congrArg (Fields.mk 5 0) hnum⟩
  · exact ⟨.rdlen ⟨imm.toNat, of_decide_eq_true himm⟩, congrArg (Fields.mk 6 0) hnum⟩
  · obtain rfl : imm = 0 := eq_of_beq himm
    exact ⟨.rdst, rfl⟩

/-- Settles O3: a command's word has the command's fields, which are legal, and legal fields are those of a command,
whose word they make. -/
theorem wordDecodesIffFieldsLegal : Obligations.WordDecodesIffFieldsLegal := by
  intro w
  constructor
  · rintro ⟨i, hi⟩
    have hw : i.fields.toWord = w := (encode_eq_toWord i).symm.trans (decode_eq_command_iff.mp hi)
    rw [← hw, Fields.ofWord_toWord]
    exact i.fields_legal
  · intro h
    obtain ⟨i, hi⟩ := Fields.exists_instr h
    refine ⟨i, decode_eq_command_iff.mpr ?_⟩
    rw [encode_eq_toWord, hi, Fields.toWord_ofWord]

end Sys2Proof
end

section
/-!
The assembler's words are the encoder's (spec 30_encoding.md R68, R69).
-/

namespace Sys2Proof.Machine

theorem ofNat_eq_encode_push {b : Nat} (h : b ≤ 255) :
    BitVec.ofNat 16 (0x2000 + b) = encode (.push (BitVec.ofNat 8 b)) := by
  have hb : (BitVec.ofNat 8 b).toNat = b := Nat.mod_eq_of_lt (by omega)
  rw [encode_eq_ofNat, Instr.operand, hb]
  rfl

theorem words_push {b : Nat} (h : b ≤ 255) : (SourceLine.push b).words = [encode (.push (BitVec.ofNat 8 b))] :=
  congrArg ([·]) (ofNat_eq_encode_push h)

theorem words_rdv (x : Fin 8) : (SourceLine.rdv x).words = [encode (.rdv x)] := by
  rw [encode_eq_ofNat]
  rfl

theorem words_rdlen (x : Fin 2) : (SourceLine.rdlen x).words = [encode (.rdlen x)] := by
  rw [encode_eq_ofNat]
  rfl

theorem words_pushn (n b : Nat) : (SourceLine.pushn n b).words = (List.replicate n (SourceLine.push b).words).flatten :=
  List.flatten_replicate_singleton.symm

/-- Every line of one command decodes to the command it is written for. -/
theorem map_decode_encode (i : Instr) : [encode i].map decode = [.command i] := by
  rw [List.map_singleton, decode_encode]

theorem pushText_eq_map_encode {text : List Char} (h : isAscii text = true) :
    pushText text = (text.map fun c => Instr.push (BitVec.ofNat 8 c.toNat)).map encode := by
  rw [pushText, List.map_map]
  refine List.map_congr_left fun c hc => ?_
  have hascii : c.toNat < 0x80 := of_decide_eq_true (List.all_eq_true.mp h c hc)
  exact ofNat_eq_encode_push (by omega)

/-- HASH is the command sequence of 00_scope.md R19, of which PUSHS is the middle part. -/
theorem words_hash {text : List Char} (h : isAscii text = true) :
    (SourceLine.hash text).words = (hashCommands (text.map fun c => BitVec.ofNat 8 c.toNat)).map encode := by
  have hinit : encode .init = 0x1000#16 := by decide
  have hfinal : encode .final = 0x3000#16 := by decide
  have hdigest : encode .digest = 0x4000#16 := by decide
  simp [SourceLine.words, pushText_eq_map_encode h, hashCommands, hinit, hfinal, hdigest, Function.comp_def]

/-- Settles O56: the lines with an operand, the repeated lines, and HASH. -/
theorem assembledLinesDecode : Obligations.AssembledLinesDecode := by
  refine ⟨fun b hb => ?_, fun i h => ?_, fun x h => ?_, words_pushn, by decide, fun _ => words_hash⟩
  · rw [words_push (of_decide_eq_true hb), map_decode_encode]
  · rw [words_rdv ⟨i, h⟩, map_decode_encode]
  · rw [words_rdlen ⟨x, h⟩, map_decode_encode]

end Sys2Proof.Machine
end

section
/-!
The step decodes the word it takes from the port (spec 20_memory.md R48; 30_encoding.md R64).
-/

namespace Sys2Proof.Machine

/-- Settles O6: the step takes the word from the port and runs what it decodes to. -/
theorem stepRunsDecodedInstruction : Obligations.StepRunsDecodedInstruction :=
  fun _ _ _ _ => step_command

end Sys2Proof.Machine
end

section
/-!
The modular-addition datapath (spec 40_datapath.md R80 to R88): the value and the bits of each function on words.
-/

namespace Sys2Proof.Machine

@[simp] theorem add32_toNat (x y : Word) : (add32 x y).toNat = (x.toNat + y.toNat) % 2 ^ 32 := BitVec.toNat_add x y

/-- Settles O9: associativity is that of addition, and of a sum of four words only the last reduction counts. -/
theorem additionWrapsModulo : Obligations.AdditionWrapsModulo := by
  refine ⟨add32_toNat, BitVec.add_comm, BitVec.add_assoc, fun x y z u => ?_, ?_⟩
  · simp only [add32_toNat, Nat.mod_add_mod]
  · decide

/-- A rotation is a product reduced modulo `2^32` and a quotient, which share no bit (R82); at `n = 0` the quotient
is 0. -/
theorem rotl_toNat (x : Word) {n : Nat} (hn : n < 32) :
    (rotl x n).toNat = (x.toNat * 2 ^ n) % 2 ^ 32 + x.toNat / 2 ^ (32 - n) := by
  have hpow : 2 ^ (32 - n) * 2 ^ n = 2 ^ 32 := by rw [← pow_add, Nat.sub_add_cancel hn.le]
  have hkept : (x.toNat * 2 ^ n) % 2 ^ 32 = (x.toNat % 2 ^ (32 - n)) <<< n := by
    rw [Nat.shiftLeft_eq, ← hpow, Nat.mul_mod_mul_right]
  have hwrapped : x.toNat / 2 ^ (32 - n) < 2 ^ n := Nat.div_lt_of_lt_mul (hpow ▸ x.isLt)
  rw [rotl, BitVec.toNat_rotateLeft, Nat.mod_eq_of_lt hn, Nat.shiftLeft_eq, Nat.shiftRight_eq_div_pow, hkept,
    Nat.shiftLeft_add_eq_or_of_lt hwrapped]

/-- Bit `i` of a rotation is bit `i - n` of the operand, modulo 32. -/
theorem rotl_getLsbD (x : Word) {n i : Nat} (hn : n < 32) (hi : i < 32) :
    (rotl x n).getLsbD i = x.getLsbD ((i + (32 - n)) % 32) := by
  rw [rotl, BitVec.getLsbD_rotateLeft_of_le hn]
  by_cases hin : i < n
  · rw [decide_eq_true hin, cond_true]
    congr 1
    omega
  · rw [decide_eq_false hin, cond_false, decide_eq_true hi, Bool.true_and]
    congr 1
    omega

/-- Settles O10: the arithmetic and the bits of a rotation, and the spec's examples. -/
theorem rotationIsCircular : Obligations.RotationIsCircular := by
  refine ⟨fun x n hn => ⟨fun _ => rotl_toNat x (by omega), ?_, fun i hi => ?_⟩, by decide⟩
  · rintro rfl
    exact BitVec.eq_of_toNat_eq (by rw [rotl_toNat x (by decide)]; omega)
  · rw [rotl_getLsbD x (by omega) (by omega)]
    congr 1
    omega

/-- Settles O11: each of the two rotations moves one bit of the operand to bit `i`. -/
theorem permutationsByBits : Obligations.PermutationsByBits := by
  intro x i hi
  have moved {n : Nat} (hn : n < 32) := rotl_getLsbD x hn hi
  constructor
  · rw [p0, BitVec.getLsbD_xor, BitVec.getLsbD_xor, moved (by decide), moved (by decide)]
  · rw [p1, BitVec.getLsbD_xor, BitVec.getLsbD_xor, moved (by decide), moved (by decide)]

theorem ff_of_lt (x y z : Word) {j : Nat} (hj : j < 16) : ff x y z j = x ^^^ y ^^^ z := if_pos hj

theorem ff_of_ge (x y z : Word) {j : Nat} (hj : 16 ≤ j) : ff x y z j = (x &&& y) ||| (x &&& z) ||| (y &&& z) :=
  if_neg (by omega)

theorem gg_of_lt (x y z : Word) {j : Nat} (hj : j < 16) : gg x y z j = x ^^^ y ^^^ z := if_pos hj

theorem gg_of_ge (x y z : Word) {j : Nat} (hj : 16 ≤ j) : gg x y z j = (x &&& y) ||| (~~~x &&& z) :=
  if_neg (by omega)

theorem majority_eq_decide (a b c : Bool) :
    (a && b || a && c || b && c) = decide (2 ≤ a.toNat + b.toNat + c.toNat) := by
  revert a b c
  decide

theorem choose_eq_ite (a b c : Bool) : (a && b || !a && c) = if a then b else c := by
  revert a b c
  decide

/-- Settles O12: FF and GG act on each bit alone, by the exclusive or below round 16, by majority and choose from
there. -/
theorem roundFunctionsByBits : Obligations.RoundFunctionsByBits := by
  refine fun x y z j i hi => ⟨fun hj => ⟨?_, ?_⟩, fun hj => ⟨?_, ?_⟩⟩
  · rw [ff_of_lt x y z hj, BitVec.getLsbD_xor, BitVec.getLsbD_xor]
  · rw [gg_of_lt x y z hj, BitVec.getLsbD_xor, BitVec.getLsbD_xor]
  · rw [ff_of_ge x y z hj, ← majority_eq_decide]
    simp only [BitVec.getLsbD_or, BitVec.getLsbD_and]
  · rw [gg_of_ge x y z hj, ← choose_eq_ite]
    simp only [BitVec.getLsbD_or, BitVec.getLsbD_and, BitVec.getLsbD_not, hi, decide_true, Bool.true_and]

theorem tConst_of_lt {j : Nat} (hj : j < 16) : tConst j = tLo := if_pos hj

theorem tConst_of_ge {j : Nat} (hj : 16 ≤ j) : tConst j = tHi := if_neg (by omega)

/-- From round 16 on the constant is the same and the rotation amount repeats after 32 rounds (R88). -/
theorem tRot_add_32 {j : Nat} (hj : 16 ≤ j) : tRot (j + 32) = tRot j := by
  rw [tRot, tRot, tConst_of_ge hj, tConst_of_ge (Nat.le_add_right_of_le hj), Nat.add_mod_right]

/-- Settles O13: the two constants, the three printed columns of the table, and its repetition. -/
theorem rotatedConstantTable : Obligations.RotatedConstantTable :=
  ⟨fun _ => tConst_of_lt, fun _ hj _ => tConst_of_ge hj, fun _ => rfl, by decide, by decide, by decide,
    fun _ hj _ => tRot_add_32 hj⟩

end Sys2Proof.Machine
end

section
/-!
The byte encoder (spec 41_byte_encoder.md R101 to R105): the bytes of each range of code points, and the bits of the
point that a marked byte carries.
-/

namespace Sys2Proof.Machine

theorem encodePoint_one_byte {c : Nat} (h : c < 0x80) : encodePoint c = .ok [BitVec.ofNat 8 c] := if_pos h

theorem encodePoint_two_bytes {c : Nat} (hlo : 0x80 ≤ c) (hhi : c ≤ 0x7FF) :
    encodePoint c = .ok [markedByte 0xC0 (pointBits c 10 6), markedByte 0x80 (pointBits c 5 0)] := by
  rw [encodePoint, if_neg (by omega), if_pos hhi]

theorem encodePoint_three_bytes {c : Nat} (hlo : 0x800 ≤ c) (hhi : c ≤ 0xFFFF) (hs : c < 0xD800 ∨ 0xDFFF < c) :
    encodePoint c = .ok [markedByte 0xE0 (pointBits c 15 12), markedByte 0x80 (pointBits c 11 6),
      markedByte 0x80 (pointBits c 5 0)] := by
  rw [encodePoint, if_neg (by omega), if_neg (by omega), if_neg (by omega), if_pos hhi]

theorem encodePoint_four_bytes {c : Nat} (hlo : 0x10000 ≤ c) (hhi : c ≤ 0x10FFFF) :
    encodePoint c = .ok [markedByte 0xF0 (pointBits c 20 18), markedByte 0x80 (pointBits c 17 12),
      markedByte 0x80 (pointBits c 11 6), markedByte 0x80 (pointBits c 5 0)] := by
  rw [encodePoint, if_neg (by omega), if_neg (by omega), if_neg (by omega), if_neg (by omega), if_pos hhi]

theorem encodePoint_surrogate {c : Nat} (hlo : 0xD800 ≤ c) (hhi : c ≤ 0xDFFF) :
    encodePoint c = .error .invalidInput := by
  rw [encodePoint, if_neg (by omega), if_neg (by omega), if_pos ⟨hlo, hhi⟩]

theorem encodePoint_above_range {c : Nat} (h : 0x10FFFF < c) : encodePoint c = .error .invalidInput := by
  rw [encodePoint, if_neg (by omega), if_neg (by omega), if_neg (by omega), if_neg (by omega), if_neg (by omega)]

/-- The encodable points are those outside the surrogates and up to 0x10FFFF (R104, R105). -/
theorem encodePoint_isOk_iff (c : Nat) :
    (∃ l, encodePoint c = .ok l) ↔ c < 0xD800 ∨ (0xDFFF < c ∧ c ≤ 0x10FFFF) := by
  constructor
  · rintro ⟨l, hl⟩
    have hsurrogate : ¬(0xD800 ≤ c ∧ c ≤ 0xDFFF) := fun ⟨hlo, hhi⟩ => by
      rw [encodePoint_surrogate hlo hhi] at hl
      cases hl
    have habove : ¬0x10FFFF < c := fun h => by
      rw [encodePoint_above_range h] at hl
      cases hl
    omega
  · intro hscalar
    obtain h | ⟨hlo, hhi⟩ | ⟨hlo, hhi⟩ | hlo :
        c < 0x80 ∨ (0x80 ≤ c ∧ c ≤ 0x7FF) ∨ (0x800 ≤ c ∧ c ≤ 0xFFFF) ∨ 0x10000 ≤ c := by omega
    · exact ⟨_, encodePoint_one_byte h⟩
    · exact ⟨_, encodePoint_two_bytes hlo hhi⟩
    · exact ⟨_, encodePoint_three_bytes hlo hhi (by omega)⟩
    · exact ⟨_, encodePoint_four_bytes hlo (by omega)⟩

theorem pointBits_lt (c hi lo : Nat) : pointBits c hi lo < 2 ^ (hi + 1 - lo) := Nat.mod_lt _ (Nat.two_pow_pos _)

/-- A field of the point joins on to the bits below it. -/
theorem pointBits_mul_add_mod (c : Nat) {hi lo : Nat} (h : lo ≤ hi + 1) :
    pointBits c hi lo * 2 ^ lo + c % 2 ^ lo = c % 2 ^ (hi + 1) := by
  rw [pointBits, ← Nat.add_sub_of_le h, pow_add, Nat.mod_mul, Nat.add_sub_cancel_left, Nat.mul_comm, Nat.add_comm]

theorem pointBits_zero (c hi : Nat) : pointBits c hi 0 = c % 2 ^ (hi + 1) := by
  rw [pointBits, pow_zero, Nat.div_one, Nat.sub_zero]

/-- The marker fills the bits above the field, so the two share no bit and their OR is their sum. -/
theorem markedByte_toNat {c marker lead hi lo : Nat} (hmarker : marker = lead * 2 ^ (hi + 1 - lo))
    (hfits : marker + 2 ^ (hi + 1 - lo) ≤ 2 ^ 8) :
    (markedByte marker (pointBits c hi lo)).toNat = marker + pointBits c hi lo := by
  have hbits := pointBits_lt c hi lo
  rw [markedByte, BitVec.toNat_or, BitVec.toNat_ofNat, BitVec.toNat_ofNat, Nat.mod_eq_of_lt (by omega),
    Nat.mod_eq_of_lt (by omega), hmarker, ← Nat.shiftLeft_eq, Nat.shiftLeft_add_eq_or_of_lt hbits]

/-- A marked byte is its field of the point with the marker taken off, and the bits above the field are the marker's. -/
theorem markedByte_carries (c marker lead hi lo : Nat) (hmarker : marker = lead * 2 ^ (hi + 1 - lo))
    (hfits : marker + 2 ^ (hi + 1 - lo) ≤ 2 ^ 8) :
    (markedByte marker (pointBits c hi lo)).toNat - marker = pointBits c hi lo ∧
      (markedByte marker (pointBits c hi lo)).toNat / 2 ^ (hi + 1 - lo) = lead := by
  rw [markedByte_toNat hmarker hfits]
  constructor
  · exact Nat.add_sub_cancel_left _ _
  · rw [hmarker, Nat.add_comm, Nat.add_mul_div_right _ _ (Nat.two_pow_pos _),
      Nat.div_eq_of_lt (pointBits_lt c hi lo), Nat.zero_add]

/-- Settles O55: in each range the leading byte and the continuation bytes carry adjoining fields of the point, from
its highest bit down to bit 0. -/
theorem utf8FormsCarryThePoint : Obligations.Utf8FormsCarryThePoint := by
  refine fun c => ⟨encodePoint_isOk_iff c, fun l hl => ?_⟩
  have hscalar := (encodePoint_isOk_iff c).mp ⟨l, hl⟩
  have bytes {l' : List Byte} (h : encodePoint c = .ok l') : l = l' := Except.ok.inj (hl.symm.trans h)
  obtain ⟨field0, marker0⟩ := markedByte_carries c 0x80 0x2 5 0 rfl (by decide)
  obtain ⟨field6, marker6⟩ := markedByte_carries c 0x80 0x2 11 6 rfl (by decide)
  obtain ⟨field12, marker12⟩ := markedByte_carries c 0x80 0x2 17 12 rfl (by decide)
  have join0 := pointBits_zero c 5
  have join6 := pointBits_mul_add_mod c (hi := 11) (lo := 6) (by decide)
  have join12 := pointBits_mul_add_mod c (hi := 17) (lo := 12) (by decide)
  refine ⟨fun h => ?_, fun hlo hhi => ?_, fun hlo hhi => ?_, fun hlo => ?_⟩
  · exact ⟨_, bytes (encodePoint_one_byte h), Nat.mod_eq_of_lt (by omega)⟩
  · obtain ⟨fieldLead, markerLead⟩ := markedByte_carries c 0xC0 0x6 10 6 rfl (by decide)
    refine ⟨_, _, bytes (encodePoint_two_bytes hlo hhi), ?_, markerLead, marker0⟩
    rw [fieldLead, field0, join0, pointBits_mul_add_mod c (by decide), Nat.mod_eq_of_lt (by omega)]
  · obtain ⟨fieldLead, markerLead⟩ := markedByte_carries c 0xE0 0xE 15 12 rfl (by decide)
    refine ⟨_, _, _, bytes (encodePoint_three_bytes hlo hhi (by omega)), ?_, markerLead, marker6, marker0⟩
    rw [fieldLead, field6, field0, join0, Nat.add_assoc, join6, pointBits_mul_add_mod c (by decide),
      Nat.mod_eq_of_lt (by omega)]
  · obtain ⟨fieldLead, markerLead⟩ := markedByte_carries c 0xF0 0x1E 20 18 rfl (by decide)
    refine ⟨_, _, _, _, bytes (encodePoint_four_bytes hlo (by omega)), ?_, markerLead, marker12, marker6, marker0⟩
    rw [fieldLead, field12, field6, field0, join0, Nat.add_assoc, join6, Nat.add_assoc, join12,
      pointBits_mul_add_mod c (by decide), Nat.mod_eq_of_lt (by omega)]

end Sys2Proof.Machine
end

section
/-!
The padder's own statements (spec 42_padder.md R112 to R121): INIT, PUSH and FINAL with their whole next state, and the
padded sequence read back.
-/

namespace Sys2Proof.Machine

/-! ### INIT and PUSH -/

/-- Settles O19: INIT is admitted in every phase, and STATUS shows phase ABSORB with no cause and FILL 0. -/
theorem initOpensMessage : Obligations.InitOpensMessage :=
  fun s => ⟨advance (initBody s), rfl, rfl, by simp [status, causeCode, phaseCode]⟩

theorem exec_push_at_limit {s : State} (b : Byte) (hp : s.phase = .absorb)
    (hlen : s.len.toNat = 2 ^ s.cfg.lenw.bits - 8) : exec (.push b) s = .next (raise .inputTooLarge s) := by
  show whenAdmitted _ s (pushBody b s) = _
  rw [whenAdmitted_execute _ (by simp [hp, admission]), pushBody, if_pos ((len_eq_limit_iff _ _).mpr hlen), settle_ok]

/-- Settles O22: the length check comes before every write. -/
theorem pushAtLimitFaults : Obligations.PushAtLimitFaults :=
  fun _ b hp hlen => exec_push_at_limit b hp hlen

/-- Settles O20: APPEND with room writes one byte of the buffer. -/
theorem pushStoresByte : Obligations.PushStoresByte := by
  intro s b hp hlen hfill
  have hroom : (writeLen s (s.len + 8)).fill ≠ 63 := fun h => hfill ((fill_eq_63_iff _).mp h)
  refine ⟨s.buf.write s.fill.toNat b, ?_, Memory.read_write_same _ _ _, fun a ha => Memory.read_write_other b ha⟩
  rw [exec_push_below b hp hlen, appendByte_room b hroom]
  rfl

/-- Settles O21: APPEND of the last byte is BLOCK on the buffer with that byte written. -/
theorem pushOfLastByteFoldsBlock : Obligations.PushOfLastByteFoldsBlock := by
  intro s b B hp hlen hfill hbytes hlast
  have hfull : (writeLen s (s.len + 8)).fill = 63 := (fill_eq_63_iff _).mpr hfill
  have hblock (a : Nat) (ha : a < 64) : (s.buf.write 63 b).read a = some B[a] := by
    rw [Memory.read_write]
    split
    · subst a; rw [hlast]
    · exact hbytes a (by omega)
  rw [exec_push_below b hp hlen, appendByte_last b hfull, blockProc_full hblock]
  rfl

/-- Settles O51: PUSH with room, or of the last byte of a block, on a state that has absorbed a message. -/
theorem pushExtendsMessage : Obligations.PushExtendsMessage :=
  fun _ _ b hp h hm => exec_push_absorbed b hp h hm

/-! ### FINAL -/

/-- Settles O52: the one or two blocks that PADFIN compresses are the last ones of the padded message. -/
theorem finalFinishesMessage : Obligations.FinalFinishesMessage :=
  fun _ _ hp h => exec_final_absorbed hp h

/-- FINAL in ABSORB is PADFIN, then the change of phase (R116). -/
theorem exec_final_of_padfin {s t : State} (hp : s.phase = .absorb) (h : padfin s = .ok t) :
    exec .final s = .next (advance { t with phase := .done }) := by
  show whenAdmitted _ s (finalBody s) = _
  rw [whenAdmitted_execute _ (by simp [hp, admission]), finalBody, h]
  rfl

/-- A byte below the length field, said by where it stands: before 0x80, at it, or after it. -/
theorem padded_byte_eq {before : Memory} {n x : Nat} {y : Byte} (hbelow : x < n → before.read x = some y)
    (hmark : x = n → y = 0x80) (hzero : n < x → y = 0) :
    (if x < n then before.read x else if x = n then some 0x80 else some 0) = some y := by
  split_ifs with hlt heq
  · exact hbelow hlt
  · rw [hmark heq]
  · rw [hzero (by omega)]

/-- A byte of the length field, from its value as a number (R118). -/
theorem length_field_byte_eq {len : BitVec 64} {B : Block}
    (h : ∀ k (hk : k < 8), B[56 + k].toNat = len.toNat / 2 ^ (8 * (7 - k)) % 256) {x : Nat} (h56 : 56 ≤ x)
    (hx : x < 64) : some (len.extractLsb' (8 * (7 - (x - 56))) 8) = some B[x] := by
  obtain ⟨k, rfl⟩ := Nat.exists_eq_add_of_le h56
  congr 1
  apply BitVec.eq_of_toNat_eq
  rw [h k (by omega), BitVec.extractLsb'_toNat, Nat.shiftRight_eq_div_pow, Nat.add_sub_cancel_left]

/-- Settles O24: PADFIN with room leaves the block `B` in the buffer for its one BLOCK. -/
theorem finalWithRoomCompressesOneBlock : Obligations.FinalWithRoomCompressesOneBlock := by
  intro s B hp hroom hbytes hmark hzero hlength
  obtain ⟨m, hpad, hread⟩ := padfin_room s hroom
  have hblock (x : Nat) (hx : x < 64) : m.read x = some B[x] := by
    rw [hread x hx, lastBlockByte]
    split
    · exact length_field_byte_eq hlength ‹_› hx
    · exact padded_byte_eq (hbytes x hx) (hmark x hx) fun h => hzero x hx h (by omega)
  rw [blockProc_full hblock] at hpad
  exact exec_final_of_padfin hp hpad

/-- Settles O25: PADFIN without room leaves `B` in the buffer for its first BLOCK and `C` for its second. -/
theorem finalWithoutRoomCompressesTwoBlocks : Obligations.FinalWithoutRoomCompressesTwoBlocks := by
  intro s B C hp hroom hbytes hmark hzero hzero' hlength
  obtain ⟨m, hread, -, hpad⟩ := padfin_no_room s hroom
  have hfirst (x : Nat) (hx : x < 64) : m.read x = some B[x] := by
    rw [hread x hx]
    exact padded_byte_eq (hbytes x hx) (hmark x hx) (hzero x hx)
  obtain ⟨m', hpad, hread'⟩ := hpad _ (blockProc_full hfirst)
  have hsecond (x : Nat) (hx : x < 64) : m'.read x = some C[x] := by
    rw [hread' x hx]
    split
    · exact length_field_byte_eq hlength ‹_› hx
    · rw [hzero' x (by omega)]; rfl
  rw [blockProc_full hsecond] at hpad
  exact exec_final_of_padfin hp hpad

/-! ### The padded sequence -/

theorem length_pad_eq (m : List Byte) : (pad m).length = 64 * ((m.length + 8) / 64 + 1) := by
  rw [length_pad, zeroCount]
  omega

/-- No smaller number of zero bytes completes a block (R119). -/
theorem zeroCount_le {len j : Nat} (h : (len + 1 + j + 8) % 64 = 0) : zeroCount len ≤ j := by
  rw [zeroCount]
  omega

theorem beBytes_succ (n x : Nat) : beBytes (n + 1) x = beBytes n (x / 2 ^ 8) ++ [BitVec.ofNat 8 x] := by
  rw [beBytes, List.ofFn_succ_last, beBytes]
  congr 2
  · funext i
    have hexp : 8 * (n + 1 - 1 - i.val) = 8 + 8 * (n - 1 - i.val) := by omega
    rw [Fin.val_castSucc, hexp, pow_add, Nat.div_div_eq_div_mul]
  · simp

/-- Read big-endian, the bytes that `BE_n` writes are the number modulo `2^(8n)` (00_scope.md R16). -/
theorem foldl_beBytes (n x : Nat) :
    (beBytes n x).foldl (fun acc b => 256 * acc + b.toNat) 0 = x % 2 ^ (8 * n) := by
  induction n generalizing x with
  | zero => simp [beBytes, Nat.mod_one]
  | succ n ih =>
    rw [beBytes_succ, List.foldl_append, ih, Nat.mul_succ, Nat.add_comm, pow_add, Nat.mod_mul, Nat.add_comm]
    rfl

theorem pad_drop_length_field (m : List Byte) :
    (pad m).drop ((pad m).length - 8) = beBytes 8 (8 * m.length) := by
  rw [pad]
  exact List.drop_left' (by simp; omega)

/-- Settles O54: the parts of PAD by their addresses; the length field reads back as a number below 2^64. -/
theorem paddingFillsWholeBlocks : Obligations.PaddingFillsWholeBlocks := by
  intro m hm
  have hmessage : (pad m).take m.length = m := by simp [pad]
  have hlength : (beBytes 8 (8 * m.length)).foldl (fun n b => 256 * n + b.toNat) 0 = 8 * m.length := by
    rw [foldl_beBytes]
    exact Nat.mod_eq_of_lt (by omega)
  exact ⟨length_pad_eq m, fun j => zeroCount_le, hmessage, pad_getElem?_marker m, fun a => pad_getElem?_zero,
    _, pad_drop_length_field m, hlength⟩

end Sys2Proof.Machine
end

section
/-!
The rounds (spec 44_compress.md R142 to R149): one round writes the eight registers from their old values, and COMPRESS
is the sequence of 64 rounds folded into `V`.
-/

namespace Sys2Proof.Machine

theorem roundStep_of_transient {s : State} {w : Vector Word 68} {wp : Vector Word 64} {r : Work}
    (h : s.transient = .working w wp r) (j : Fin 64) :
    roundStep j s = .ok { s with transient := .working w wp (roundWork j.val r w[j.val] wp[j.val]) } := by
  rw [roundStep, h]

/-- Settles O15: `roundWork` computes its four wires from the old registers, by the additions that `ADD32` is. -/
theorem roundWritesSimultaneously : Obligations.RoundWritesSimultaneously :=
  fun _ j _ _ _ h => roundStep_of_transient h j

/-- `R_n` of R149 on the schedule of `b`, from the tuple of `v`. R149 has no `n` above 64; the value there is arbitrary. -/
def registersAfter (v : Words8) (b : Block) (n : Nat) : Work :=
  if h : n ≤ 64 then roundsPure (schedW b) (schedWp b) n h (workOfV v) else workOfV v

theorem registersAfter_of_le (v : Words8) (b : Block) {n : Nat} (h : n ≤ 64) :
    registersAfter v b n = roundsPure (schedW b) (schedWp b) n h (workOfV v) := dif_pos h

theorem registersAfter_zero (v : Words8) (b : Block) : registersAfter v b 0 = workOfV v :=
  registersAfter_of_le v b (Nat.zero_le 64)

theorem registersAfter_succ (v : Words8) (b : Block) {j : Nat} (h : j < 64) :
    registersAfter v b (j + 1) = roundWork j (registersAfter v b j) (schedW b)[j] (schedWp b)[j] := by
  rw [registersAfter_of_le v b h, registersAfter_of_le v b (Nat.le_of_lt h), roundsPure]

theorem compress_eq_foldWords (v : Words8) (b : Block) : compress v b = foldWords v (registersAfter v b 64) := by
  rw [registersAfter_of_le v b (Nat.le_refl 64), compress]

/-- Settles O16: the sequence is that of the registers after each round. -/
theorem compressIsFoldOfRounds : Obligations.CompressIsFoldOfRounds :=
  fun v b => ⟨registersAfter v b, registersAfter_zero v b, fun _ => registersAfter_succ v b, compress_eq_foldWords v b⟩

/-- Settles O17: the micro-operations of BLOCK in the order of R148. -/
theorem blockFoldsCompress : Obligations.BlockFoldsCompress := fun _ _ => blockProc_full

end Sys2Proof.Machine
end

section
/-!
The digest serializer (spec 45_serializer.md R160 to R162): the value of a digest character, which nibble of the State each
character spells, and why the characters determine the State.
-/

namespace Sys2Proof.Machine

/-! ### One character -/

theorem hexChar_toNat (n : Nibble) :
    (hexChar n).toNat = if n.toNat ≤ 9 then 0x30 + n.toNat else 0x61 + (n.toNat - 10) := by
  unfold hexChar
  split
  · rw [BitVec.toNat_ofNat, Nat.mod_eq_of_lt (by omega)]
  · rw [BitVec.toNat_ofNat, Nat.mod_eq_of_lt (by omega)]

theorem hexChar_toNat_of_le {n : Nibble} (h : n.toNat ≤ 9) : (hexChar n).toNat = 0x30 + n.toNat := by
  rw [hexChar_toNat, if_pos h]

theorem hexChar_toNat_of_ge {n : Nibble} (h : 10 ≤ n.toNat) : (hexChar n).toNat = 0x61 + (n.toNat - 10) := by
  rw [hexChar_toNat, if_neg (Nat.not_le.mpr h)]

theorem hexChar_range (n : Nibble) :
    (0x30 ≤ (hexChar n).toNat ∧ (hexChar n).toNat ≤ 0x39) ∨
    (0x61 ≤ (hexChar n).toNat ∧ (hexChar n).toNat ≤ 0x66) := by
  obtain h | h := le_or_gt n.toNat 9
  · rw [hexChar_toNat_of_le h]
    omega
  · rw [hexChar_toNat_of_ge h]
    omega

/-- The digits end at 0x39, below the first letter 0x61, so a character gives back its nibble. -/
theorem hexChar_injective : Function.Injective hexChar := by
  intro n k h
  have hval : (hexChar n).toNat = (hexChar k).toNat := congrArg BitVec.toNat h
  rw [hexChar_toNat, hexChar_toNat] at hval
  apply BitVec.eq_of_toNat_eq
  split at hval <;> split at hval <;> omega

/-! ### The string -/

@[simp] theorem length_hexStr (v : Words8) : (hexStr v).length = 64 := List.length_ofFn

theorem hexStr_getElem? (v : Words8) (p : Fin 64) : (hexStr v)[p.val]? = some (hexChar (digestNibble v p)) := by
  rw [hexStr, List.getElem?_ofFn, dif_pos p.isLt]

theorem mem_hexStr {v : Words8} {c : Byte} : c ∈ hexStr v ↔ ∃ p, hexChar (digestNibble v p) = c := List.mem_ofFn

theorem digestNibble_toNat (v : Words8) (p : Fin 64) :
    (digestNibble v p).toNat = v[p.val / 8].toNat / 2 ^ (28 - 4 * (p.val % 8)) % 2 ^ 4 := by
  rw [digestNibble, BitVec.extractLsb'_toNat, Nat.shiftRight_eq_div_pow]

theorem digestNibble_eq_ofNat (v : Words8) (p : Fin 64) :
    digestNibble v p = BitVec.ofNat 4 (v[p.val / 8].toNat / 2 ^ (28 - 4 * (p.val % 8)) % 16) := by
  apply BitVec.eq_of_toNat_eq
  rw [digestNibble_toNat, BitVec.toNat_ofNat]
  exact (Nat.mod_mod _ 16).symm

/-! ### The string determines the State -/

/-- The character that spells bit `i` of word `k`: the nibbles of a word appear from its most significant one (R161). -/
def charOfBit (k : Fin 8) (i : Fin 32) : Fin 64 := ⟨8 * k.val + (7 - i.val / 4), by omega⟩

theorem getLsbD_digestNibble_charOfBit (v : Words8) (k : Fin 8) (i : Fin 32) :
    (digestNibble v (charOfBit k i)).getLsbD (i.val % 4) = v[k.val].getLsbD i.val := by
  have hword : (charOfBit k i).val / 8 = k.val := by
    simp only [charOfBit]
    omega
  have hbit : 28 - 4 * ((charOfBit k i).val % 8) + i.val % 4 = i.val := by
    simp only [charOfBit]
    omega
  have hlow : i.val % 4 < 4 := Nat.mod_lt _ (by decide)
  simp only [digestNibble, BitVec.getLsbD_extractLsb', hlow, hword, hbit, decide_true, Bool.true_and]

theorem eq_of_digestNibble_eq {v u : Words8} (h : ∀ p, digestNibble v p = digestNibble u p) : v = u := by
  ext k hk i hi
  have hbit := getLsbD_digestNibble_charOfBit v ⟨k, hk⟩ ⟨i, hi⟩
  rw [h, getLsbD_digestNibble_charOfBit] at hbit
  exact hbit.symm

theorem hexStr_injective : Function.Injective hexStr := by
  intro v u h
  have hchar : ∀ p, hexChar (digestNibble v p) = hexChar (digestNibble u p) := congrFun (List.ofFn_injective h)
  exact eq_of_digestNibble_eq fun p => hexChar_injective (hchar p)

/-! ### The obligations -/

/-- Settles O32: the events are the characters of HEXSTR, which the 64 `emit_hex` append in order. -/
theorem digestEmitsHexString : Obligations.DigestEmitsHexString := by
  intro s hp
  refine ⟨(hexStr s.v).map .hex, exec_digest_done hp, by simp, fun p h => ?_⟩
  rw [List.getElem?_map, hexStr_getElem? s.v ⟨p, h⟩, digestNibble_eq_ofNat]
  rfl

/-- Settles O33: every character of the string is a HEXCHAR, and those lie in the two ranges. -/
theorem digestCharactersAreLowercaseHex : Obligations.DigestCharactersAreLowercaseHex := by
  refine ⟨fun n => ⟨hexChar_toNat_of_le, hexChar_toNat_of_ge⟩, fun v c hc => ?_⟩
  obtain ⟨p, rfl⟩ := mem_hexStr.mp hc
  exact hexChar_range _

/-- Settles O34: HEXCHAR is injective, and every bit of the State is a bit of some character's nibble. -/
theorem hexStringSpellsState : Obligations.HexStringSpellsState :=
  ⟨fun v => ⟨length_hexStr v, fun p h =>
    ⟨digestNibble v ⟨p, h⟩, digestNibble_toNat v ⟨p, h⟩, hexStr_getElem? v ⟨p, h⟩⟩⟩, fun _ _ h => hexStr_injective h⟩

end Sys2Proof.Machine
end

section
/-!
The read-back commands (spec 46_readback.md R170 to R172): each is admitted in every phase and answers one response, whose
value as a number is given here for LEN and STATUS.
-/

namespace Sys2Proof.Machine

/-! ### Admitted in every phase (R71) -/

theorem exec_rdv (i : Fin 8) (s : State) : exec (.rdv i) s = .next (advance (emitResp s (stateWord s i))) :=
  whenAdmitted_execute (i := .rdv i) (s := s) (.ok _) rfl

theorem exec_rdlen (x : Fin 2) (s : State) : exec (.rdlen x) s = .next (advance (emitResp s (lenHalf s x))) :=
  whenAdmitted_execute (i := .rdlen x) (s := s) (.ok _) rfl

theorem exec_rdst (s : State) : exec .rdst s = .next (advance (emitResp s (status s))) :=
  whenAdmitted_execute (i := .rdst) (s := s) (.ok _) rfl

/-! ### The responses as numbers -/

theorem lenHalf_toNat (s : State) (x : Fin 2) : (lenHalf s x).toNat = s.len.toNat / 2 ^ (32 * x.val) % 2 ^ 32 := by
  rw [lenHalf, BitVec.extractLsb'_toNat, Nat.shiftRight_eq_div_pow]

/-- A field joined on at the low end, of any width. -/
theorem toNat_append_field {n m : Nat} (x : BitVec n) (y : BitVec m) : (x ++ y).toNat = x.toNat * 2 ^ m + y.toNat := by
  rw [BitVec.toNat_append, ← Nat.shiftLeft_add_eq_or_of_lt y.isLt, Nat.shiftLeft_eq]

/-- STATUS has its three fields at bits 0, 2 and 4; they fill 10 bits, so the widening to 32 keeps the value (R31). -/
theorem status_toNat (s : State) :
    (status s).toNat = (phaseCode s.phase).toNat + 4 * (causeCode s.cause).toNat + 16 * s.fill.toNat := by
  rw [status, BitVec.toNat_setWidth_of_le (by decide), toNat_append_field, toNat_append_field]
  omega

/-! ### The obligations -/

/-- Settles O37: the fields of STATUS are its parts as a number, and each code is that of R28 or R29. -/
theorem readbackOfStatus : Obligations.ReadbackOfStatus := by
  refine fun s => ⟨status s, exec_rdst s, (status_toNat s).trans ?_⟩
  cases s.phase <;> cases s.cause <;> rfl

/-- Settles O35: RDV emits the word that its index selects. -/
theorem readbackOfStateWord : Obligations.ReadbackOfStateWord := fun s i => exec_rdv i s

/-- Settles O36: the half that RDLEN emits is a quotient of LEN reduced to 32 bits. -/
theorem readbackOfLength : Obligations.ReadbackOfLength :=
  fun s x => ⟨lenHalf s x, exec_rdlen x s, lenHalf_toNat s x⟩

end Sys2Proof.Machine
end

section
/-!
The exceptions (spec 60_exceptions.md R181 to R189): which commands are refused in which phase, what a word that enters
FAULT changes, what a word does in FAULT, and the ways out.
-/

namespace Sys2Proof.Machine

/-! ### The phase check (30_encoding.md R71) -/

/-- The cells of the admission table that refuse a command. -/
theorem admission_eq_invalidInput_iff {i : Instr} {p : Phase} :
    admission i p = .invalidInput ↔
      ((∃ b, i = .push b) ∨ i = .final) ∧ (p = .idle ∨ p = .done) ∨ i = .digest ∧ (p = .idle ∨ p = .absorb) := by
  cases i <;> cases p <;> simp [admission]

/-- The cells of the admission table that discard a command. -/
theorem admission_eq_discard_iff {i : Instr} {p : Phase} :
    admission i p = .discard ↔ p = .fault ∧ ((∃ b, i = .push b) ∨ i = .final ∨ i = .digest) := by
  cases i <;> cases p <;> simp [admission]

/-- Outside FAULT a command that is not executed is refused. -/
theorem admission_eq_invalidInput {i : Instr} {p : Phase} (hfault : p ≠ .fault) (hexec : admission i p ≠ .execute) :
    admission i p = .invalidInput := by
  cases h : admission i p with
  | execute => exact absurd h hexec
  | invalidInput => rfl
  | discard =>
    obtain ⟨hp, -⟩ := admission_eq_discard_iff.mp h
    exact absurd hp hfault

/-- Every command passes the phase check first (R71, R185). -/
theorem exec_eq_whenAdmitted (i : Instr) (s : State) : ∃ body, exec i s = whenAdmitted i s body := by
  cases i with
  | init => exact ⟨.ok _, rfl⟩
  | push b => exact ⟨pushBody b s, rfl⟩
  | final => exact ⟨finalBody s, rfl⟩
  | digest => exact ⟨.ok _, rfl⟩
  | rdv x => exact ⟨.ok _, rfl⟩
  | rdlen x => exact ⟨.ok _, rfl⟩
  | rdst => exact ⟨.ok _, rfl⟩

theorem exec_of_invalidInput {i : Instr} {s : State} (h : admission i s.phase = .invalidInput) :
    exec i s = .next (raise .invalidInput s) := by
  obtain ⟨body, hbody⟩ := exec_eq_whenAdmitted i s
  rw [hbody, whenAdmitted_invalid body h]

theorem exec_of_discard {i : Instr} {s : State} (h : admission i s.phase = .discard) :
    exec i s = .next (advance s) := by
  obtain ⟨body, hbody⟩ := exec_eq_whenAdmitted i s
  rw [hbody, whenAdmitted_discard body h, discardCommand]

/-! ### Words -/

theorem execIllegal_of_fault {s : State} (h : s.phase = .fault) : execIllegal s = advance s := if_pos h

theorem execIllegal_of_ne_fault {s : State} (h : s.phase ≠ .fault) : execIllegal s = raise .illegalCommand s := if_neg h

theorem runWord_of_command {w : CmdWord} {i : Instr} (s : State) (h : decode w = .command i) :
    runWord w s = exec i s := by rw [runWord, h]

theorem runWord_of_illegal {w : CmdWord} {y : Illegal} (s : State) (h : decode w = .illegal y) :
    runWord w s = .next (execIllegal s) := by rw [runWord, h]

theorem step_of_illegal {s : State} {w : CmdWord} {y : Illegal} {rest : List HostEvent}
    (h : s.port = .command w :: rest) (hd : decode w = .illegal y) :
    step s = .next (execIllegal { s with port := rest }) := by
  simp only [step, h, runEvent, runWord_of_illegal _ hd]

/-- Settles O7: the decoder tries every row, so the word is illegal. -/
theorem stepTakesIllegalWord : Obligations.StepTakesIllegalWord := by
  intro s w rest hport hrows
  have hdec := decode_of_no_hit fun r hr hhit => hrows r hr ((Row.hits_iff r w).mp hhit)
  rw [step_of_illegal hport hdec]
  exact ⟨fun hp => congrArg _ (execIllegal_of_ne_fault (s := { s with port := rest }) hp),
    fun hp => congrArg _ (execIllegal_of_fault (s := { s with port := rest }) hp)⟩

/-- Settles O8: the step looks at the port first. -/
theorem stepWithNothingSentHoldsState : Obligations.StepWithNothingSentHoldsState :=
  fun s h => by rw [step, h]

/-! ### Fault entry -/

/-- The ways a command enters FAULT: PUSH at the length limit, and a command out of phase (R181, R182). -/
theorem exec_enters_fault {i : Instr} {s t : State} (hp : s.phase ≠ .fault) (h : exec i s = .next t)
    (ht : t.phase = .fault) :
    ((∃ b, i = .push b) ∧ t = raise .inputTooLarge s) ∨
    (admission i s.phase = .invalidInput ∧ t = raise .invalidInput s) := by
  obtain ⟨-, rfl⟩ | ⟨b, rfl, -, -, rfl⟩ | ⟨_, -, -, -, -, rfl⟩ | ⟨_, -, -, -, -, -, _, rfl⟩ | ⟨-, -, -, _, rfl⟩ |
    ⟨-, -, rfl⟩ | ⟨_, -, rfl⟩ | ⟨_, -, rfl⟩ | ⟨-, rfl⟩ | ⟨hadm, rfl⟩ | ⟨-, rfl⟩ := exec_cases h
  · exact nomatch ht
  · exact .inl ⟨⟨b, rfl⟩, rfl⟩
  · exact absurd ht hp
  · exact absurd ht hp
  · exact nomatch ht
  · exact absurd ht hp
  · exact absurd ht hp
  · exact absurd ht hp
  · exact absurd ht hp
  · exact .inr ⟨hadm, rfl⟩
  · exact absurd ht hp

/-- The ways a word enters FAULT: those of the commands, and an illegal word; each is a `raise` of its own cause on the
state as it was (R185, R187). -/
theorem runWord_enters_fault {w : CmdWord} {s t : State} (hp : s.phase ≠ .fault) (h : runWord w s = .next t)
    (ht : t.phase = .fault) :
    t = raise .illegalCommand s ∨ t = raise .inputTooLarge s ∨
    ∃ i, decode w = .command i ∧ admission i s.phase = .invalidInput ∧ t = raise .invalidInput s := by
  cases hd : decode w with
  | illegal y =>
    rw [runWord_of_illegal s hd, execIllegal_of_ne_fault hp] at h
    injection h with h
    exact .inl h.symm
  | command i =>
    rw [runWord_of_command s hd] at h
    obtain ⟨-, hlimit⟩ | ⟨hadm, hphase⟩ := exec_enters_fault hp h ht
    · exact .inr (.inl hlimit)
    · exact .inr (.inr ⟨i, rfl, hadm, hphase⟩)

theorem status_phase_field (s : State) : (status s).toNat % 4 = (phaseCode s.phase).toNat := by
  have hphase := (phaseCode s.phase).isLt
  rw [status_toNat]
  omega

theorem status_cause_field (s : State) : (status s).toNat / 4 % 4 = (causeCode s.cause).toNat := by
  have hphase := (phaseCode s.phase).isLt
  have hcause := (causeCode s.cause).isLt
  rw [status_toNat]
  omega

/-- Settles O28: every way into FAULT is a `raise` of a cause, which RDST then shows. -/
theorem faultEntryChangesNothingElse : Obligations.FaultEntryChangesNothingElse := by
  intro w s t hp h ht
  obtain ⟨c, hc, rfl⟩ : ∃ c, c ≠ .noFault ∧ t = raise c s := by
    obtain rfl | rfl | ⟨i, -, -, rfl⟩ := runWord_enters_fault hp h ht
    · exact ⟨_, by decide, rfl⟩
    · exact ⟨_, by decide, rfl⟩
    · exact ⟨_, by decide, rfl⟩
  refine ⟨hc, rfl, status (raise c s), exec_rdst _, status_phase_field _, (status_cause_field _).trans ?_⟩
  cases c <;> rfl

/-- Settles O26: the phase check refuses these commands in these phases, and the other ways into FAULT have other
causes. -/
theorem invalidInputExactlyOutOfOrder : Obligations.InvalidInputExactlyOutOfOrder := by
  refine fun s => ⟨fun hp => ⟨fun b => ?_, ?_⟩, fun hp => ?_, fun w t hp h ht hcause => ?_⟩
  · exact exec_of_invalidInput (admission_eq_invalidInput_iff.mpr (.inl ⟨.inl ⟨b, rfl⟩, hp⟩))
  · exact exec_of_invalidInput (admission_eq_invalidInput_iff.mpr (.inl ⟨.inr rfl, hp⟩))
  · exact exec_of_invalidInput (admission_eq_invalidInput_iff.mpr (.inr ⟨rfl, hp⟩))
  · obtain rfl | rfl | ⟨i, hd, hadm, -⟩ := runWord_enters_fault hp h ht
    · exact nomatch hcause
    · exact nomatch hcause
    · simpa [hd] using admission_eq_invalidInput_iff.mp hadm

/-! ### In FAULT -/

/-- Settles O27: the phase check discards these commands in FAULT and admits the read-backs in every phase. -/
theorem faultPhaseDiscards : Obligations.FaultPhaseDiscards := by
  intro s w hp
  have discarded {i : Instr} (hd : decode w = .command i) (hi : (∃ b, i = .push b) ∨ i = .final ∨ i = .digest) :
      runWord w s = .next (advance s) :=
    (runWord_of_command s hd).trans (exec_of_discard (admission_eq_discard_iff.mpr ⟨hp, hi⟩))
  refine ⟨?_, fun x hd => (runWord_of_command s hd).trans (exec_rdv x s),
    fun x hd => (runWord_of_command s hd).trans (exec_rdlen x s),
    fun hd => (runWord_of_command s hd).trans (exec_rdst s)⟩
  rintro (⟨b, hd⟩ | hd | hd | ⟨y, hd⟩)
  · exact discarded hd (.inl ⟨b, rfl⟩)
  · exact discarded hd (.inr (.inl rfl))
  · exact discarded hd (.inr (.inr rfl))
  · rw [runWord_of_illegal s hd, execIllegal_of_fault hp]
    rfl

/-- In FAULT a command is INIT, which opens a message, or it writes no more than the history (R188, R189). -/
theorem exec_in_fault {i : Instr} {s t : State} (hp : s.phase = .fault) (h : exec i s = .next t) :
    (i = .init ∧ t = advance (initBody s)) ∨ ∃ o, t = advance { s with out := s.out ++ o } := by
  have discarded (hi : (∃ b, i = .push b) ∨ i = .final ∨ i = .digest) :
      ∃ o, t = advance { s with out := s.out ++ o } := by
    rw [exec_of_discard (admission_eq_discard_iff.mpr ⟨hp, hi⟩)] at h
    injection h with h
    exact ⟨[], by simp [← h]⟩
  cases i with
  | init => injection h with h; exact .inl ⟨rfl, h.symm⟩
  | push b => exact .inr (discarded (.inl ⟨b, rfl⟩))
  | final => exact .inr (discarded (.inr (.inl rfl)))
  | digest => exact .inr (discarded (.inr (.inr rfl)))
  | rdv x => rw [exec_rdv] at h; injection h with h; exact .inr ⟨_, h.symm⟩
  | rdlen x => rw [exec_rdlen] at h; injection h with h; exact .inr ⟨_, h.symm⟩
  | rdst => rw [exec_rdst] at h; injection h with h; exact .inr ⟨_, h.symm⟩

/-- A word that leaves the engine in FAULT keeps the cause of the first fault (R188). -/
theorem runWord_keeps_cause_in_fault {w : CmdWord} {s t : State} (hp : s.phase = .fault) (h : runWord w s = .next t)
    (ht : t.phase = .fault) : t.cause = s.cause := by
  cases hd : decode w with
  | illegal y =>
    rw [runWord_of_illegal s hd, execIllegal_of_fault hp] at h
    injection h with h
    rw [← h, advance_cause]
  | command i =>
    rw [runWord_of_command s hd] at h
    obtain ⟨-, rfl⟩ | ⟨o, rfl⟩ := exec_in_fault hp h
    · exact nomatch ht
    · rfl

/-- Settles O29: the decoder is asked before the phase check, and the phase check before the length check. -/
theorem faultPriority : Obligations.FaultPriority := by
  intro w s
  have refused {i : Instr} (hp : s.phase ≠ .fault) (hd : decode w = .command i)
      (hexec : admission i s.phase ≠ .execute) : runWord w s = .next (raise .invalidInput s) :=
    (runWord_of_command s hd).trans (exec_of_invalidInput (admission_eq_invalidInput hp hexec))
  refine ⟨fun hp t => runWord_keeps_cause_in_fault hp, ?_, ?_, ?_⟩
  · rintro hp ⟨y, hd⟩
    rw [runWord_of_illegal s hd, execIllegal_of_ne_fault hp]
    rfl
  · rintro hp (⟨⟨b, hd⟩ | hd, hphase⟩ | ⟨hd, hphase⟩)
    · exact refused hp hd (mt admission_push hphase)
    · exact refused hp hd (mt admission_final hphase)
    · exact refused hp hd (mt admission_digest hphase)
  · rintro hp ⟨b, hd⟩ hlen
    exact (runWord_of_command s hd).trans (exec_push_at_limit b hp hlen)

/-- Settles O30: of the steps taken in FAULT only INIT and the two resets write the phase. -/
theorem faultLeftOnlyByInitOrReset : Obligations.FaultLeftOnlyByInitOrReset := by
  intro s t hp h ht
  obtain ⟨-, rfl⟩ | ⟨w, i, rest, hport, hd, hi⟩ | ⟨w, y, rest, -, -, rfl⟩ | ⟨rest, hport, rfl⟩ |
    ⟨w, rest, hport, rfl⟩ := step_cases h
  · exact absurd hp ht
  · obtain ⟨rfl, rfl⟩ | ⟨o, rfl⟩ := exec_in_fault (s := { s with port := rest }) hp hi
    · exact .inl ⟨w, rest, hport, hd, rfl, rfl, rfl, rfl, rfl⟩
    · exact absurd hp ht
  · rw [execIllegal_of_fault (s := { s with port := rest }) hp] at ht
    exact absurd hp ht
  · exact .inr ⟨.inl ⟨rest, hport⟩, rfl, rfl, rfl, rfl, rfl⟩
  · exact .inr ⟨.inr ⟨w, rest, hport⟩, rfl, rfl, rfl, rfl, rfl⟩

end Sys2Proof.Machine
end

section
/-!
The two resets (spec 70_reset_and_hazards.md R200, R214): the whole next state of a step that takes one of them from the
port, and what a command cut short has output.
-/

namespace Sys2Proof.Machine

theorem step_of_reset {s : State} {rest : List HostEvent} (h : s.port = .reset :: rest) :
    step s = .next (resetEngine { s with port := rest }) := by
  simp only [step, h, runEvent]

theorem step_of_commandCutByReset {s : State} {w : CmdWord} {rest : List HostEvent}
    (h : s.port = .commandCutByReset w :: rest) :
    step s = .next (cutByReset { s with port := rest } (runWord w { s with port := rest })) := by
  simp only [step, h, runEvent]

/-- The outputs of a command that completes are what it has appended to the history. -/
theorem outputsSince_of_append {s u : State} {e : List OutEvent} (h : u.out = s.out ++ e) :
    outputsSince s (.next u) = e := by
  rw [outputsSince, h, List.drop_left]

/-- Settles O42: the step takes the reset event, and what it does is the reset of the engine. -/
theorem resetBetweenCommands : Obligations.ResetBetweenCommands := fun _ _ => step_of_reset

/-- Settles O43: the prefix is as long as the free value drawn for this reset (R214). -/
theorem resetDuringCommand : Obligations.ResetDuringCommand := by
  intro s u w rest e hport hrun hout
  have houtputs : outputsSince { s with port := rest } (.next u) = e := outputsSince_of_append hout
  refine ⟨Config.freePrefixLength s.freeCount, ?_⟩
  rw [step_of_commandCutByReset hport, hrun, cutByReset, houtputs]
  rfl

end Sys2Proof.Machine
end
